-- ==== Sys2Proof/Word.lean ====
section
/-! DEFINITION. The plain data the engine computes on: the command word, the byte, the bit vector. -/

namespace Sys2Proof

/-- A command word: 32 bits, bit 0 least significant (30_encoding.md R40). -/
abbrev Word := BitVec 32

/-- A byte: 8 bits (20_memory.md R30). -/
abbrev Byte := BitVec 8

/-- A bit vector (00_scope.md R4): a finite sequence of bits, index 0 (the least significant) first. Its length is the
list's length and is independent of its value; equality of lists is the spec's equality ("no numeric normalization"). -/
abbrev Bits := List Bool

end Sys2Proof
end

