-- ==== Sys2Proof/Machine/BitVector.lean ====
section
/-! DEFINITION. The notation of 00_scope.md section 5 on bit vectors and naturals, which the source functions are written in. -/

namespace Sys2Proof.Machine

/-- `val(b)`: the value of a bit vector (00_scope.md R4), index 0 of weight 1; 0 for the zero-length vector. -/
def val : Bits → Nat
  | [] => 0
  | b :: bs => b.toNat + 2 * val bs

/-- `blen(v)`: the number of bits of `v`, 0 for 0, else the `k` with `2^(k-1) <= v < 2^k` (00_scope.md section 5.2). -/
def blen (v : Nat) : Nat := if v = 0 then 0 else v.log2 + 1

/-- `bitLength(v) = max(1, blen(v))` (00_scope.md section 5.2). -/
def bitLength (v : Nat) : Nat := max 1 (blen v)

/-- The vector of length `n` whose bit `i` is `bit_i(v)` (00_scope.md section 5.2; 40_convert.md R60). -/
def bitsOf (v n : Nat) : Bits := (List.range n).map v.testBit

/-- `zeros(k)` (00_scope.md section 5.1). -/
def zeros (k : Nat) : Bits := List.replicate k false

/-- `ones(k)` (00_scope.md section 5.1). -/
def ones (k : Nat) : Bits := List.replicate k true

/-- The fewest bytes that hold `n` bits: `ceil(n / 8)`. -/
def byteCount (n : Nat) : Nat := (n + 7) / 8

/-- A vector is minimal when its top bit is 1, or it is the single bit 0 (00_scope.md R5). -/
def minimal (b : Bits) : Bool := b == [false] || b.getLast? == some true

end Sys2Proof.Machine
end

