-- ==== Sys2Proof/Config.lean ====
section
/-! DEFINITION. What is fixed for one machine: the OPEN parameters of 00_scope.md R2 and their default values. -/

namespace Sys2Proof

/-- The parameter DEC_ZERO (00_scope.md R2): what decrement of a vector with no 1 bit does (41_incdec.md R73). -/
inductive DecZero where
  /-- The default: raise DomainError(DEC_ZERO). -/
  | error
  /-- The reference behaviour: all ones, one bit shorter; the error for the zero-length vector. -/
  | shrink
deriving DecidableEq, Repr

/-- The OPEN parameters of 00_scope.md R2; `none` means unbounded. (NV, NS and CW are fixed: 8, 8 and 32.) -/
structure Params where
  /-- LMAX: greatest length, in bits, of a vector register. -/
  lmax : Option Nat
  /-- SLEN: width in bits of a two's-complement scalar register. -/
  slen : Option Nat
  /-- BMAX: greatest length, in bytes, of the byte buffer. -/
  bmax : Option Nat
  /-- DEC_ZERO. -/
  decZero : DecZero
deriving DecidableEq, Repr

/-- No capacity is finite, DEC_ZERO is `z`: the two settings a claim about DEC_ZERO quantifies over (93 U3). -/
def Params.unbounded (z : DecZero) : Params := { lmax := none, slen := none, bmax := none, decZero := z }

/-- The default value of every OPEN parameter (00_scope.md R2), for which "a model is written ... unless a claim says
otherwise". Every meaning also exists for any parameters (its `…With` definition; Machine/Parametric.lean). Log 8. -/
def Config.params : Params := .unbounded .error

end Sys2Proof
end

