-- ==== Sys2Proof/Syntax.lean ====
section
/-! DEFINITION. The commands as syntax: one constructor per row of spec/opcode_table.json, in the table's order. -/

namespace Sys2Proof

/-- The number of a vector register `v0 .. v7` (10_state.md R11); also how a 3-bit field is read. -/
abbrev VReg := Fin 8

/-- The number of a scalar register `s0 .. s7` (10_state.md R13). -/
abbrev SReg := Fin 8

/-- The 23 commands (30_encoding.md R41). Operands stand in the order d, a, b, c, f of R49, and each register operand has
the register file R42 gives it. The six pseudo-instructions of R50 are `fromint`, `append` and `trimend` with `f` fixed. -/
inductive Instr where
  /-- `FROMINT vd, sa, f` (40_convert.md R61); `f` is `minimal`. -/
  | fromint (d : VReg) (a : SReg) (f : Bool)
  /-- `TOINT sd, va` (40_convert.md R63). -/
  | toint (d : SReg) (a : VReg)
  /-- `TOBYTES va` (40_convert.md R65). -/
  | tobytes (a : VReg)
  /-- `FROMBYTES vd` (40_convert.md R67). -/
  | frombytes (d : VReg)
  /-- `INC vd, va` (41_incdec.md R71). -/
  | inc (d a : VReg)
  /-- `DEC vd, va` (41_incdec.md R74). -/
  | dec (d a : VReg)
  /-- `ADDK vd, va, sb` (41_incdec.md R76). -/
  | addk (d a : VReg) (b : SReg)
  /-- `SUBK vd, va, sb` (41_incdec.md R78). -/
  | subk (d a : VReg) (b : SReg)
  /-- `GROW vd, va, sb` (42_length.md R81). -/
  | grow (d a : VReg) (b : SReg)
  /-- `SHRINK vd, va, sb` (42_length.md R83). -/
  | shrink (d a : VReg) (b : SReg)
  /-- `APPEND vd, va, f` (42_length.md R85); `f` is the appended bit. -/
  | append (d a : VReg) (f : Bool)
  /-- `SLICE vd, va, sb, sc` (43_select.md R91); `b` holds start, `c` holds count. -/
  | slice (d a : VReg) (b c : SReg)
  /-- `CONCAT vd, va, vb` (43_select.md R93). -/
  | concat (d a b : VReg)
  /-- `TRIMEND vd, va, f` (43_select.md R95); `f` is the trimmed value. -/
  | trimend (d a : VReg) (f : Bool)
  /-- `REVERSE vd, va` (43_select.md R97). -/
  | reverse (d a : VReg)
  /-- `HWEIGHT sd, va` (44_bitquery.md R106). -/
  | hweight (d : SReg) (a : VReg)
  /-- `FLIP vd, va, sb` (44_bitquery.md R108). -/
  | flip (d a : VReg) (b : SReg)
  /-- `EQUALS sd, va, vb` (44_bitquery.md R110). -/
  | equals (d : SReg) (a b : VReg)
  /-- `INVR vd, va, sb, sc` (43_select.md R99); `b` holds start, `c` holds count. -/
  | invr (d a : VReg) (b c : SReg)
  /-- `LEN sd, va` (44_bitquery.md R112). -/
  | len (d : SReg) (a : VReg)
  /-- `ENCODE vd, sa` (45_codec.md R122). -/
  | encode (d : VReg) (a : SReg)
  /-- `DECODE sd, va` (45_codec.md R125). -/
  | decode (d : SReg) (a : VReg)
  /-- `CLRERR` (46_system.md R135). -/
  | clrerr
deriving DecidableEq, Repr

end Sys2Proof
end

