-- ==== Sys2Proof/Machine/State.lean ====
section
/-! DEFINITION. The state, as plain data: all the spec gives the machine (10_state.md R11 to R18), and the four ports of
10_state.md R21 as the model's own fields; the state after reset; the names of the ways a step can stop. -/

namespace Sys2Proof.Machine

/-- STATUS.KIND (10_state.md R16); the value 3 is never produced and has no name (93 U9). -/
inductive Kind where
  | none | domainError | illegalCommand
deriving DecidableEq, Repr

/-- STATUS.CAUSE (60_exceptions.md R142); the values 8..15 are never produced and have no name (93 U9). -/
inductive Cause where
  | none | negInteger | shrinkRange | sliceRange | flipRange | negCount | decZero | invrRange
deriving DecidableEq, Repr

/-- The register STATUS (10_state.md R16) by its two fields. Its reserved bits STATUS[7:6] read as 0 and are held nowhere;
the 8-bit word is `Status.word` (Flags.lean). Log 10. -/
structure Status where
  kind : Kind
  cause : Cause
deriving DecidableEq, Repr

/-- The engine's answer to one command (10_state.md R21; 60_exceptions.md R145): ok, or the command's error. -/
inductive Response where
  | ok
  | error (kind : Kind) (cause : Cause)
deriving DecidableEq, Repr

/-- What the register access port hands the host on a read (10_state.md R19, R21). -/
inductive Readout where
  | vector (x : Bits)
  | scalar (n : Int)
  | buffer (ys : List Byte)
  | status (w : BitVec 8)
deriving DecidableEq, Repr

/-- One move of the host (10_state.md R10, R19, R21): a transfer on the command, register access or reset port. -/
inductive HostMove where
  /-- A command word on the command port. -/
  | command (w : Word)
  /-- Write of a vector register, as the pair length and bits. -/
  | writeV (i : VReg) (x : Bits)
  /-- Write of a scalar register. -/
  | writeS (i : SReg) (n : Int)
  /-- Write of the byte buffer, content and length. -/
  | writeB (ys : List Byte)
  /-- Read of a vector register. -/
  | readV (i : VReg)
  /-- Read of a scalar register. -/
  | readS (i : SReg)
  /-- Read of the byte buffer. -/
  | readB
  /-- Read of STATUS. (The host cannot write it: R19.) -/
  | readStatus
  /-- Reset asserted (70_reset_and_hazards.md R160). -/
  | reset
deriving DecidableEq, Repr

/-- The byte buffer `B` (10_state.md R14, 20_memory.md R30) as cells (address, byte) in one canonical form: the addresses are
0, 1, .., len(B) - 1 in this order (`Memory.wf`, Ops.lean). Its length is the number of cells. Log 5. -/
abbrev Memory := List Host.Cell

/-- The state of the engine (10_state.md R18: `v0..v7`, `s0..s7`, `B` and `STATUS`, and no other), with the model's own
records of the ports (R21): `inputs`, `responses`, `readouts` (logs 6 and 7). There is no program counter (R15), no flag
(R17) and no mode (60_exceptions.md R151). -/
structure State where
  /-- `v0 .. v7` (10_state.md R11). -/
  vregs : Vector Bits 8
  /-- `s0 .. s7` (10_state.md R13). -/
  sregs : Vector Int 8
  /-- The byte buffer `B` (10_state.md R14). -/
  buf : Memory
  /-- `STATUS` (10_state.md R16). -/
  status : Status
  /-- MODEL'S OWN: the host's moves still to come, the next one first. -/
  inputs : List HostMove
  /-- MODEL'S OWN: the responses given so far, one per completed command, the oldest first. -/
  responses : List Response
  /-- MODEL'S OWN: what host reads have returned so far, the oldest first. -/
  readouts : List Readout
deriving DecidableEq, Repr

/-- Right after reset (10_state.md R20): STATUS is 0 and no command is executing or pending. The content of the registers and
of `B` is unspecified there; the values here are the model's: DESIGN CHOICE (logs 2, 3, 4), unsafe, chosen to be neither
zero nor of length zero, as 93 U2 bids. -/
def State.reset : State where
  vregs := Vector.replicate 8 [true, true]
  sregs := Vector.replicate 8 1
  buf := [(0, 1)]
  status := { kind := .none, cause := .none }
  inputs := []
  responses := []
  readouts := []

/-- The ways a step stops for good: none. Both errors of the engine (60_exceptions.md R140) are delivered and the engine
goes on (R145, R146), so they are next states; nobody raises a fault. Safe. Log 1. -/
inductive Fault where
deriving DecidableEq, Repr

/-- The ways a step is refused. -/
inductive Refusal where
  /-- Raised by an arm of `exec` for a command with no meaning yet; no arm raises it. Safe. -/
  | notModelled (mnemonic : String)
  /-- A vector longer than a FINITE LMAX (00_scope.md R3, 93 U1), raised by `retireV` and a host write. Safe: the spec gives
  such a step no meaning. Never raised at the default parameters. -/
  | vectorCapacity
  /-- A scalar outside a FINITE SLEN's range (00_scope.md R3, 93 U1), raised by `retireS` and a host write. Safe; never
  raised at the default parameters. -/
  | scalarCapacity
  /-- A byte sequence longer than a FINITE BMAX (00_scope.md R3, 93 U1), raised by `retireB` and a host write. Safe; never
  raised at the default parameters. -/
  | bufferCapacity
deriving DecidableEq, Repr

/-- What a step answers. -/
abbrev Out := Host.Outcome State Fault Refusal

end Sys2Proof.Machine
end

