-- ==== Sys2Proof/Machine/Flags.lean ====
section
/-! DEFINITION. STATUS: its codes, its 8-bit word, and how an error is latched and cleared. The engine has no condition codes,
carry flag, zero flag or predicate (10_state.md R17), so there is no flag to compute. -/

namespace Sys2Proof.Machine

/-- The code of a kind in STATUS[1:0] (10_state.md R16). -/
def Kind.code : Kind → Nat
  | .none => 0
  | .domainError => 1
  | .illegalCommand => 2

/-- The code of a cause in STATUS[5:2] (60_exceptions.md R142). -/
def Cause.code : Cause → Nat
  | .none => 0
  | .negInteger => 1
  | .shrinkRange => 2
  | .sliceRange => 3
  | .flipRange => 4
  | .negCount => 5
  | .decZero => 6
  | .invrRange => 7

/-- STATUS as the host reads it (10_state.md R16): KIND in bits 1:0, CAUSE in bits 5:2, bits 7:6 zero. -/
def Status.word (st : Status) : BitVec 8 := BitVec.ofNat 8 (st.kind.code + 4 * st.cause.code)

/-- STATUS with no error latched: 0 (10_state.md R16, R20). -/
def Status.clear : Status := { kind := .none, cause := .none }

/-- The latch (10_state.md R16, 60_exceptions.md R145 (3)): the first error wins. -/
def Status.latch (k : Kind) (c : Cause) (st : Status) : Status :=
  if st.kind = .none then { kind := k, cause := c } else st

end Sys2Proof.Machine
end

