-- ==== Sys2Proof/Machine/Ops.lean ====
section
/-! DEFINITION. The named operations over the byte buffer, the registers and STATUS: the ONE way each is read and written;
raising an error (60_exceptions.md R145) and clearing the latch (46_system.md R135), each one shared operation; the end of
a command (30_encoding.md R47 (3) and (4)). -/

namespace Sys2Proof.Machine

/-! ### The byte buffer (20_memory.md R30, R33) -/

/-- What an address outside the buffer reads as: nothing, for it does not exist (20_memory.md R30). Log 5. -/
def Memory.unlisted : Option Byte := none

/-- The byte at an address of the buffer, `B[a]`. -/
def Memory.read (m : Memory) (a : Nat) : Option Byte := (m.lookup a).or Memory.unlisted

/-- The canonical form: the addresses are exactly 0, 1, .., len(B) - 1, in this order (20_memory.md R30). -/
def Memory.wf (m : Memory) : Bool := m.map Prod.fst == List.range m.length

/-- The whole content `B[0] .. B[len(B)-1]`: `MemRead(0, len(B))` (00_scope.md section 5.3). -/
def Memory.bytes (m : Memory) : List Byte := m.map Prod.snd

/-- The buffer that holds given bytes, length included: `B <- bytes` (00_scope.md section 5.3). -/
def Memory.ofBytes (ys : List Byte) : Memory := (List.range ys.length).zip ys

/-! ### Registers (10_state.md R11 to R14): none is hardwired, a write changes no other register (R12) -/

/-- `v[i]`. -/
def State.readV (s : State) (i : VReg) : Bits := s.vregs[i]

/-- `s[i]`. -/
def State.readS (s : State) (i : SReg) : Int := s.sregs[i]

/-- The bytes of `B`. -/
def State.readB (s : State) : List Byte := s.buf.bytes

/-- `v[i] <- x`. -/
def State.writeV (i : VReg) (x : Bits) (s : State) : State := { s with vregs := s.vregs.set i x }

/-- `s[i] <- n`. -/
def State.writeS (i : SReg) (n : Int) (s : State) : State := { s with sregs := s.sregs.set i n }

/-- `B <- bytes`: the whole buffer is replaced, its length too. -/
def State.writeB (ys : List Byte) (s : State) : State := { s with buf := .ofBytes ys }

/-- The response to the command just completed (10_state.md R21). -/
def State.respond (r : Response) (s : State) : State := { s with responses := s.responses ++ [r] }

/-- The answer to a read of the host (10_state.md R19). -/
def State.hand (r : Readout) (s : State) : State := { s with readouts := s.readouts ++ [r] }

/-! ### Errors -/

/-- Raising an error of kind `k` with cause `c` (60_exceptions.md R145): no register and no byte of `B` is written, the response
is the error, and STATUS latches it if nothing is latched. Nothing else happens: no transfer of control, no mode, no
saved state (R144). -/
def State.raise (k : Kind) (c : Cause) (s : State) : State :=
  { s with status := s.status.latch k c }.respond (.error k c)

/-- Clearing the latch (46_system.md R135), the engine's only "return from trap" (60_exceptions.md R150). -/
def State.clearStatus (s : State) : State := { s with status := .clear }

/-! ### Capacity (00_scope.md R3): a finite LMAX, SLEN or BMAX; always true at the default -/

/-- The vector fits LMAX. -/
def fitsV (p : Params) (x : Bits) : Bool := p.lmax.all fun m => x.length ≤ m

/-- The integer lies in the two's-complement range of SLEN bits, `-2^(SLEN-1) <= n < 2^(SLEN-1)`. -/
def fitsS (p : Params) (n : Int) : Bool := p.slen.all fun k => -(2 ^ k) ≤ 2 * n ∧ 2 * n < 2 ^ k

/-- The byte sequence fits BMAX. -/
def fitsB (p : Params) (ys : List Byte) : Bool := p.bmax.all fun m => ys.length ≤ m

/-! ### The end of a command (30_encoding.md R47): on a failure raise and write nothing, else write the one destination and
answer ok; a result that does not fit a finite capacity has no meaning (00_scope.md R3). -/

/-- The end of a command whose destination is `v[d]`. -/
def retireV (p : Params) (d : VReg) (r : Except Cause Bits) (s : State) : Out :=
  match r with
  | .error c => .next (s.raise .domainError c)
  | .ok x => if fitsV p x then .next ((s.writeV d x).respond .ok) else .refused .vectorCapacity

/-- The end of a command whose destination is `s[d]`; none of these commands fails. -/
def retireS (p : Params) (d : SReg) (n : Int) (s : State) : Out :=
  if fitsS p n then .next ((s.writeS d n).respond .ok) else .refused .scalarCapacity

/-- The end of a command whose destination is `B`; it does not fail. -/
def retireB (p : Params) (ys : List Byte) (s : State) : Out :=
  if fitsB p ys then .next ((s.writeB ys).respond .ok) else .refused .bufferCapacity

end Sys2Proof.Machine
end

