-- ==== Sys2Proof/Machine/Operands.lean ====
section
/-! DEFINITION. The operand forms beyond a plain register read (`State.readV`, `State.readS`, `State.readB`; 30_encoding.md R42):
a count and a half-open range taken from scalar registers. The boolean operand `f` is the Bool of the command itself, the only
immediate (R43); nothing is extended, scaled or shifted. -/

namespace Sys2Proof.Machine

/-- A count operand (`k`, `extra`, `remove`): a natural number, else DomainError(NEG_COUNT) (60_exceptions.md R141, 92 D14). -/
def countOperand (n : Int) : Except Cause Nat := if n < 0 then .error .negCount else .ok n.toNat

/-- The half-open range `[start, start + count)` does not lie within a vector of length `n` (43_select.md R90, R98). -/
abbrev OutOfRange (start count : Int) (n : Nat) : Prop := start < 0 ∨ count < 0 ∨ (n : Int) < start + count

end Sys2Proof.Machine
end

