-- ==== Sys2Proof/Machine/BitQuery.lean ====
section
/-! DEFINITION. The bit query and single-bit commands HWEIGHT, FLIP, EQUALS, LEN (44_bitquery.md). -/

namespace Sys2Proof.Machine

/-- `hammingWeight(bits)` (44_bitquery.md R105): the number of set bits. -/
def hammingWeight (b : Bits) : Nat := b.count true

/-- `flip(bits, i)` (44_bitquery.md R107): the same length, bit `i` inverted. -/
def flip (b : Bits) (i : Int) : Except Cause Bits :=
  if i < 0 ∨ (b.length : Int) ≤ i then .error .flipRange else .ok (b.modify i.toNat not)

/-- `equals(a, b)` (44_bitquery.md R109): same length and same bits, no numeric normalization. -/
def equals (a b : Bits) : Bool := a == b

/-- `HWEIGHT sd, va` (44_bitquery.md R106). -/
def hweightWith (p : Params) (d : SReg) (a : VReg) (s : State) : Out := retireS p d (hammingWeight (s.readV a)) s

def execHweight (d : SReg) (a : VReg) (s : State) : Out := hweightWith Config.params d a s

/-- `FLIP vd, va, sb` (44_bitquery.md R108). -/
def flipWith (p : Params) (d a : VReg) (b : SReg) (s : State) : Out :=
  retireV p d (flip (s.readV a) (s.readS b)) s

def execFlip (d a : VReg) (b : SReg) (s : State) : Out := flipWith Config.params d a b s

/-- `EQUALS sd, va, vb` (44_bitquery.md R110). -/
def equalsWith (p : Params) (d : SReg) (a b : VReg) (s : State) : Out :=
  retireS p d (if equals (s.readV a) (s.readV b) then 1 else 0) s

def execEquals (d : SReg) (a b : VReg) (s : State) : Out := equalsWith Config.params d a b s

/-- `LEN sd, va` (44_bitquery.md R111, R112). -/
def lenWith (p : Params) (d : SReg) (a : VReg) (s : State) : Out := retireS p d (s.readV a).length s

def execLen (d : SReg) (a : VReg) (s : State) : Out := lenWith Config.params d a s

end Sys2Proof.Machine
end

