-- ==== Sys2Proof/Machine/Convert.lean ====
section
/-! DEFINITION. The conversion commands FROMINT, TOINT, TOBYTES, FROMBYTES (40_convert.md). -/

namespace Sys2Proof.Machine

/-- `fromInteger(v, minimal)` (40_convert.md R60). -/
def fromInteger (v : Int) (minimal : Bool) : Except Cause Bits :=
  if v < 0 then .error .negInteger
  else .ok (bitsOf v.toNat
    (if minimal then max 1 (blen v.toNat) else 8 * max 1 (byteCount (blen v.toNat))))

/-- `toInteger(bits)` (40_convert.md R62). -/
def toInteger (b : Bits) : Int := val b

/-- Byte `j` of the packing of a vector (40_convert.md R64): vector bit `8*j + i` is its bit `i`, missing bits are 0. -/
def packedByte (b : Bits) (j : Nat) : Byte := BitVec.ofNat 8 (val ((b.drop (8 * j)).take 8))

/-- `toBytes(bits)` (40_convert.md R64). -/
def toBytes (b : Bits) : List Byte :=
  if b.length = 0 then [0] else (List.range (byteCount b.length)).map (packedByte b)

/-- `fromBytes(bytes)` (40_convert.md R66). -/
def fromBytes (ys : List Byte) : Bits := ys.flatMap fun y => (List.range 8).map y.getLsbD

/-- `FROMINT vd, sa, f` (40_convert.md R61). -/
def fromintWith (p : Params) (d : VReg) (a : SReg) (f : Bool) (s : State) : Out :=
  retireV p d (fromInteger (s.readS a) f) s

def execFromint (d : VReg) (a : SReg) (f : Bool) (s : State) : Out := fromintWith Config.params d a f s

/-- `TOINT sd, va` (40_convert.md R63). -/
def tointWith (p : Params) (d : SReg) (a : VReg) (s : State) : Out := retireS p d (toInteger (s.readV a)) s

def execToint (d : SReg) (a : VReg) (s : State) : Out := tointWith Config.params d a s

/-- `TOBYTES va` (40_convert.md R65). -/
def tobytesWith (p : Params) (a : VReg) (s : State) : Out := retireB p (toBytes (s.readV a)) s

def execTobytes (a : VReg) (s : State) : Out := tobytesWith Config.params a s

/-- `FROMBYTES vd` (40_convert.md R67). -/
def frombytesWith (p : Params) (d : VReg) (s : State) : Out := retireV p d (.ok (fromBytes s.readB)) s

def execFrombytes (d : VReg) (s : State) : Out := frombytesWith Config.params d s

end Sys2Proof.Machine
end

