-- ==== Sys2Proof/Machine/Codec.lean ====
section
/-! DEFINITION. The compact-codec commands ENCODE and DECODE (45_codec.md). -/

namespace Sys2Proof.Machine

/-- Stages EN3 and EN4 of `encode` (45_codec.md R121): bit 0 kept, the interior bits inverted, the top bit dropped. On the
zero-length vector (EN3) the input is returned; EN2 never yields it (93 U7). -/
def encodeTransform : Bits → Bits
  | [] => []
  | b0 :: rest => b0 :: rest.dropLast.map not

/-- `encode(value)` (45_codec.md R121): EN1 the domain check, EN2 the bias 2 and the minimal vector, then the transform. -/
def compactEncode (v : Int) : Except Cause Bits :=
  if v < 0 then .error .negInteger
  else (fromInteger (v + 2) true).map encodeTransform

/-- Stage DE2 of `decode` on a non-empty codeword (45_codec.md R124): bit 0 kept, the others inverted, a top bit 1 added. -/
def restoreBiased (c0 : Bool) (rest : Bits) : Bits := c0 :: rest.map not ++ [true]

/-- `decode(codeword)` (45_codec.md R124): DE1 gives 0 for the zero-length vector (R125; 90 C3), else DE3: subtract the bias. -/
def compactDecode : Bits → Int
  | [] => 0
  | c0 :: rest => toInteger (restoreBiased c0 rest) - 2

/-- `ENCODE vd, sa` (45_codec.md R122). -/
def encodeWith (p : Params) (d : VReg) (a : SReg) (s : State) : Out := retireV p d (compactEncode (s.readS a)) s

def execEncode (d : VReg) (a : SReg) (s : State) : Out := encodeWith Config.params d a s

/-- `DECODE sd, va` (45_codec.md R125). -/
def decodeWith (p : Params) (d : SReg) (a : VReg) (s : State) : Out := retireS p d (compactDecode (s.readV a)) s

def execDecode (d : SReg) (a : VReg) (s : State) : Out := decodeWith Config.params d a s

end Sys2Proof.Machine
end

