-- ==== Sys2Proof/Machine/IncDec.lean ====
section
/-! DEFINITION. The increment and decrement commands INC, DEC, ADDK, SUBK (41_incdec.md). -/

namespace Sys2Proof.Machine

/-- `increment(bits)` (41_incdec.md R70): the carry ripples through the low ones; past the last bit it grows the vector. -/
def increment : Bits → Bits
  | [] => [true]
  | false :: bs => true :: bs
  | true :: bs => false :: increment bs

/-- The ripple borrow of `decrement` on a vector with some bit 1 (41_incdec.md R72). (The borrow past the last bit is never
reached there.) -/
def borrow : Bits → Bits
  | [] => []
  | false :: bs => true :: borrow bs
  | true :: bs => false :: bs

/-- `decrement(bits)` (41_incdec.md R72; R73 when no bit is 1). -/
def decrement (z : DecZero) (b : Bits) : Except Cause Bits :=
  if true ∈ b then .ok (borrow b)
  else match z with
    | .error => .error .decZero
    | .shrink => if b.length = 0 then .error .decZero else .ok (ones (b.length - 1))

/-- `addConstant(bits, k)` for `k >= 0` (41_incdec.md R75): `k` sequential increments. -/
def addConstant (b : Bits) : Nat → Bits
  | 0 => b
  | k + 1 => increment (addConstant b k)

/-- `subtractConstant(bits, k)` for `k >= 0` (41_incdec.md R77): `k` sequential decrements; the first that fails fails the
whole. -/
def subtractConstant (z : DecZero) (b : Bits) : Nat → Except Cause Bits
  | 0 => .ok b
  | k + 1 =>
    match subtractConstant z b k with
    | .error c => .error c
    | .ok x => decrement z x

/-- `INC vd, va` (41_incdec.md R71). -/
def incWith (p : Params) (d a : VReg) (s : State) : Out := retireV p d (.ok (increment (s.readV a))) s

def execInc (d a : VReg) (s : State) : Out := incWith Config.params d a s

/-- `DEC vd, va` (41_incdec.md R74). -/
def decWith (p : Params) (d a : VReg) (s : State) : Out := retireV p d (decrement p.decZero (s.readV a)) s

def execDec (d a : VReg) (s : State) : Out := decWith Config.params d a s

/-- `ADDK vd, va, sb` (41_incdec.md R76). -/
def addkWith (p : Params) (d a : VReg) (b : SReg) (s : State) : Out :=
  retireV p d ((countOperand (s.readS b)).map (addConstant (s.readV a))) s

def execAddk (d a : VReg) (b : SReg) (s : State) : Out := addkWith Config.params d a b s

/-- `SUBK vd, va, sb` (41_incdec.md R78). -/
def subkWith (p : Params) (d a : VReg) (b : SReg) (s : State) : Out :=
  retireV p d ((countOperand (s.readS b)).bind (subtractConstant p.decZero (s.readV a))) s

def execSubk (d a : VReg) (b : SReg) (s : State) : Out := subkWith Config.params d a b s

end Sys2Proof.Machine
end

