-- ==== Sys2Proof/Machine/Length.lean ====
section
/-! DEFINITION. The length-changing commands GROW, SHRINK, APPEND (42_length.md). None of them is a shift. -/

namespace Sys2Proof.Machine

/-- `grow(bits, extra)` for `extra >= 0` (42_length.md R80). -/
def grow (b : Bits) (extra : Nat) : Bits := b ++ zeros extra

/-- `shrink(bits, remove)` for `remove >= 0` (42_length.md R82). -/
def shrink (b : Bits) (remove : Nat) : Except Cause Bits :=
  if b.length < remove then .error .shrinkRange else .ok (b.take (b.length - remove))

/-- `append(bits, bit)` (42_length.md R84). -/
def append (b : Bits) (bit : Bool) : Bits := b ++ [bit]

/-- `GROW vd, va, sb` (42_length.md R81). -/
def growWith (p : Params) (d a : VReg) (b : SReg) (s : State) : Out :=
  retireV p d ((countOperand (s.readS b)).map (grow (s.readV a))) s

def execGrow (d a : VReg) (b : SReg) (s : State) : Out := growWith Config.params d a b s

/-- `SHRINK vd, va, sb` (42_length.md R83). -/
def shrinkWith (p : Params) (d a : VReg) (b : SReg) (s : State) : Out :=
  retireV p d ((countOperand (s.readS b)).bind (shrink (s.readV a))) s

def execShrink (d a : VReg) (b : SReg) (s : State) : Out := shrinkWith Config.params d a b s

/-- `APPEND vd, va, f` (42_length.md R85). -/
def appendWith (p : Params) (d a : VReg) (f : Bool) (s : State) : Out :=
  retireV p d (.ok (append (s.readV a) f)) s

def execAppend (d a : VReg) (f : Bool) (s : State) : Out := appendWith Config.params d a f s

end Sys2Proof.Machine
end

