-- ==== Sys2Proof/Machine/Select.lean ====
section
/-! DEFINITION. The selection and rearrangement commands SLICE, CONCAT, TRIMEND, REVERSE, INVR (43_select.md). -/

namespace Sys2Proof.Machine

/-- `slice(bits, start, count)` (43_select.md R90): `bits[start ..< start + count]`. -/
def slice (b : Bits) (start count : Int) : Except Cause Bits :=
  if OutOfRange start count b.length then .error .sliceRange
  else .ok ((b.drop start.toNat).take count.toNat)

/-- `concat(a, b)` (43_select.md R92): `a` is the low part. -/
def concat (a b : Bits) : Bits := a ++ b

/-- The loop of `trimEnd` (43_select.md R94): from `m` down, while `bits[m-1] = value`. -/
def trimLength (b : Bits) (value : Bool) : Nat → Nat
  | 0 => 0
  | m + 1 => if b[m]? = some value then trimLength b value m else m + 1

/-- `trimEnd(bits, value)` (43_select.md R94). -/
def trimEnd (b : Bits) (value : Bool) : Bits := b.take (trimLength b value b.length)

/-- `reverse(bits)` (43_select.md R96): index `i` becomes index `n-1-i`. -/
def reverse (b : Bits) : Bits := b.reverse

/-- `invertRange(bits, start, count)` (43_select.md R98). -/
def invertRange (b : Bits) (start count : Int) : Except Cause Bits :=
  if OutOfRange start count b.length then .error .invrRange
  else .ok (b.mapIdx fun i x => if start ≤ i ∧ (i : Int) < start + count then !x else x)

/-- `SLICE vd, va, sb, sc` (43_select.md R91). -/
def sliceWith (p : Params) (d a : VReg) (b c : SReg) (s : State) : Out :=
  retireV p d (slice (s.readV a) (s.readS b) (s.readS c)) s

def execSlice (d a : VReg) (b c : SReg) (s : State) : Out := sliceWith Config.params d a b c s

/-- `CONCAT vd, va, vb` (43_select.md R93). -/
def concatWith (p : Params) (d a b : VReg) (s : State) : Out :=
  retireV p d (.ok (concat (s.readV a) (s.readV b))) s

def execConcat (d a b : VReg) (s : State) : Out := concatWith Config.params d a b s

/-- `TRIMEND vd, va, f` (43_select.md R95). -/
def trimendWith (p : Params) (d a : VReg) (f : Bool) (s : State) : Out :=
  retireV p d (.ok (trimEnd (s.readV a) f)) s

def execTrimend (d a : VReg) (f : Bool) (s : State) : Out := trimendWith Config.params d a f s

/-- `REVERSE vd, va` (43_select.md R97). -/
def reverseWith (p : Params) (d a : VReg) (s : State) : Out := retireV p d (.ok (reverse (s.readV a))) s

def execReverse (d a : VReg) (s : State) : Out := reverseWith Config.params d a s

/-- `INVR vd, va, sb, sc` (43_select.md R99). -/
def invrWith (p : Params) (d a : VReg) (b c : SReg) (s : State) : Out :=
  retireV p d (invertRange (s.readV a) (s.readS b) (s.readS c)) s

def execInvr (d a : VReg) (b c : SReg) (s : State) : Out := invrWith Config.params d a b c s

end Sys2Proof.Machine
end

