-- ==== Sys2Proof/Machine/System.lean ====
section
/-! DEFINITION. The system command CLRERR (46_system.md). -/

namespace Sys2Proof.Machine

/-- `CLRERR` (46_system.md R135): STATUS becomes 0, the response is ok; nothing else is read or written. -/
def execClrerr (s : State) : Out := .next (s.clearStatus.respond .ok)

end Sys2Proof.Machine
end

