-- ==== Sys2Proof/Machine/Dispatch.lean ====
section
/-! DEFINITION. exec: one arm per constructor of Instr, each one direct call of that command's meaning. -/

namespace Sys2Proof.Machine

def exec (i : Instr) (s : State) : Host.Outcome State Fault Refusal :=
  match i with
  | .fromint d a f => Sys2Proof.Machine.execFromint d a f s
  | .toint d a => Sys2Proof.Machine.execToint d a s
  | .tobytes a => Sys2Proof.Machine.execTobytes a s
  | .frombytes d => Sys2Proof.Machine.execFrombytes d s
  | .inc d a => Sys2Proof.Machine.execInc d a s
  | .dec d a => Sys2Proof.Machine.execDec d a s
  | .addk d a b => Sys2Proof.Machine.execAddk d a b s
  | .subk d a b => Sys2Proof.Machine.execSubk d a b s
  | .grow d a b => Sys2Proof.Machine.execGrow d a b s
  | .shrink d a b => Sys2Proof.Machine.execShrink d a b s
  | .append d a f => Sys2Proof.Machine.execAppend d a f s
  | .slice d a b c => Sys2Proof.Machine.execSlice d a b c s
  | .concat d a b => Sys2Proof.Machine.execConcat d a b s
  | .trimend d a f => Sys2Proof.Machine.execTrimend d a f s
  | .reverse d a => Sys2Proof.Machine.execReverse d a s
  | .hweight d a => Sys2Proof.Machine.execHweight d a s
  | .flip d a b => Sys2Proof.Machine.execFlip d a b s
  | .equals d a b => Sys2Proof.Machine.execEquals d a b s
  | .invr d a b c => Sys2Proof.Machine.execInvr d a b c s
  | .len d a => Sys2Proof.Machine.execLen d a s
  | .encode d a => Sys2Proof.Machine.execEncode d a s
  | .decode d a => Sys2Proof.Machine.execDecode d a s
  | .clrerr => Sys2Proof.Machine.execClrerr s

end Sys2Proof.Machine
end

