-- ==== Sys2Proof/WellFormed.lean ====
section
/-! DEFINITION. The fields of a command word and when a format allows them (30_encoding.md R40, R42, R44). A term of `Instr`
is well-formed by its type (a register number is a `Fin 8`); what can be ill-formed is the word, hence its fields. -/

namespace Sys2Proof

/-- The fields of a command word (30_encoding.md R40): `op` = w[4:0], `d` = w[7:5], `a` = w[10:8], `b` = w[13:11],
`c` = w[16:14], `f` = w[17], `zero` = w[31:18]. -/
structure Fields where
  op : Fin 32
  d : Fin 8
  a : Fin 8
  b : Fin 8
  c : Fin 8
  f : Bool
  zero : Fin 16384
deriving DecidableEq, Repr

/-- The seven formats (30_encoding.md R42): which of the fields d, a, b, c, f a command uses. -/
inductive Format where
  | none | d | a | da | daf | dab | dabc
deriving DecidableEq, Repr

def Format.usesD : Format → Bool
  | .none | .a => false
  | .d | .da | .daf | .dab | .dabc => true

def Format.usesA : Format → Bool
  | .none | .d => false
  | .a | .da | .daf | .dab | .dabc => true

def Format.usesB : Format → Bool
  | .none | .d | .a | .da | .daf => false
  | .dab | .dabc => true

def Format.usesC : Format → Bool
  | .none | .d | .a | .da | .daf | .dab => false
  | .dabc => true

def Format.usesF : Format → Bool
  | .none | .d | .a | .da | .dab | .dabc => false
  | .daf => true

/-- "A field the format does not use must be 0" (30_encoding.md R42, R44). -/
def Format.unusedZero (fmt : Format) (x : Fields) : Bool :=
  (fmt.usesD || decide (x.d = 0)) && (fmt.usesA || decide (x.a = 0)) && (fmt.usesB || decide (x.b = 0)) &&
    (fmt.usesC || decide (x.c = 0)) && (fmt.usesF || decide (x.f = false))

/-- The fields are well-formed for a format: the reserved bits and every unused field are 0 (30_encoding.md R44). -/
def Fields.wellFormed (fmt : Format) (x : Fields) : Bool :=
  decide (x.zero = 0) && fmt.unusedZero x

/-- Why a word is not a legal command (30_encoding.md R44, R45). The spec gives all three the one error `IllegalCommand`
(60_exceptions.md R143); the names, and which is reported where several hold, are the model's and reach no state. -/
inductive Reject where
  /-- Opcode 0 or 24..31. -/
  | reservedOpcode
  /-- Some bit of w[31:18] is 1. -/
  | reservedBits
  /-- A field the format does not use is nonzero. -/
  | unusedField
deriving DecidableEq, Repr

end Sys2Proof
end

