-- ==== Sys2Proof/Decode.lean ====
section
/-! DEFINITION. The decoder, total on every 32-bit word and rejecting by name, and after it the encoder, both written from
30_encoding.md (R40 to R46). -/

namespace Sys2Proof

/-- The fields of a word, cut out once (30_encoding.md R40). -/
def fieldsOf (w : Word) : Fields where
  op := Fin.ofNat 32 w.toNat
  d := Fin.ofNat 8 (w.toNat / 32)
  a := Fin.ofNat 8 (w.toNat / 256)
  b := Fin.ofNat 8 (w.toNat / 2048)
  c := Fin.ofNat 8 (w.toNat / 16384)
  f := w.toNat / 131072 % 2 == 1
  zero := Fin.ofNat 16384 (w.toNat / 262144)

/-- The opcodes (30_encoding.md R41): an opcode's format and its command, built from the fields the format uses; `none` for
the reserved values 0 and 24..31 (R45). -/
def opcodeRow (op : Nat) : Option (Format × (Fields → Instr)) :=
  match op with
  | 1 => some (.daf, fun x => .fromint x.d x.a x.f)
  | 2 => some (.da, fun x => .toint x.d x.a)
  | 3 => some (.a, fun x => .tobytes x.a)
  | 4 => some (.d, fun x => .frombytes x.d)
  | 5 => some (.da, fun x => .inc x.d x.a)
  | 6 => some (.da, fun x => .dec x.d x.a)
  | 7 => some (.dab, fun x => .addk x.d x.a x.b)
  | 8 => some (.dab, fun x => .subk x.d x.a x.b)
  | 9 => some (.dab, fun x => .grow x.d x.a x.b)
  | 10 => some (.dab, fun x => .shrink x.d x.a x.b)
  | 11 => some (.daf, fun x => .append x.d x.a x.f)
  | 12 => some (.dabc, fun x => .slice x.d x.a x.b x.c)
  | 13 => some (.dab, fun x => .concat x.d x.a x.b)
  | 14 => some (.daf, fun x => .trimend x.d x.a x.f)
  | 15 => some (.da, fun x => .reverse x.d x.a)
  | 16 => some (.da, fun x => .hweight x.d x.a)
  | 17 => some (.dab, fun x => .flip x.d x.a x.b)
  | 18 => some (.dab, fun x => .equals x.d x.a x.b)
  | 19 => some (.dabc, fun x => .invr x.d x.a x.b x.c)
  | 20 => some (.da, fun x => .len x.d x.a)
  | 21 => some (.da, fun x => .encode x.d x.a)
  | 22 => some (.da, fun x => .decode x.d x.a)
  | 23 => some (.none, fun _ => .clrerr)
  | _ => none

/-- The decoder: strict (30_encoding.md R44), total and unambiguous (R46). A word that is no legal command is rejected by
name. -/
def decode (w : Word) : Except Reject Instr :=
  match opcodeRow (fieldsOf w).op with
  | none => .error .reservedOpcode
  | some (fmt, build) =>
    if (fieldsOf w).zero ≠ 0 then .error .reservedBits
    else if fmt.unusedZero (fieldsOf w) = false then .error .unusedField
    else .ok (build (fieldsOf w))

/-- A word is a legal command (30_encoding.md R44): its opcode is not reserved and its fields are well-formed for the
opcode's format. -/
def legal (w : Word) : Bool :=
  match opcodeRow (fieldsOf w).op with
  | none => false
  | some (fmt, _) => (fieldsOf w).wellFormed fmt

/-- All fields 0: what an encoded command's unused fields hold (30_encoding.md R44). -/
def Fields.blank : Fields := { op := 0, d := 0, a := 0, b := 0, c := 0, f := false, zero := 0 }

/-- The fields of a command's word (30_encoding.md R41, R42). -/
def encodeFields : Instr → Fields
  | .fromint d a f => { Fields.blank with op := 1, d := d, a := a, f := f }
  | .toint d a => { Fields.blank with op := 2, d := d, a := a }
  | .tobytes a => { Fields.blank with op := 3, a := a }
  | .frombytes d => { Fields.blank with op := 4, d := d }
  | .inc d a => { Fields.blank with op := 5, d := d, a := a }
  | .dec d a => { Fields.blank with op := 6, d := d, a := a }
  | .addk d a b => { Fields.blank with op := 7, d := d, a := a, b := b }
  | .subk d a b => { Fields.blank with op := 8, d := d, a := a, b := b }
  | .grow d a b => { Fields.blank with op := 9, d := d, a := a, b := b }
  | .shrink d a b => { Fields.blank with op := 10, d := d, a := a, b := b }
  | .append d a f => { Fields.blank with op := 11, d := d, a := a, f := f }
  | .slice d a b c => { Fields.blank with op := 12, d := d, a := a, b := b, c := c }
  | .concat d a b => { Fields.blank with op := 13, d := d, a := a, b := b }
  | .trimend d a f => { Fields.blank with op := 14, d := d, a := a, f := f }
  | .reverse d a => { Fields.blank with op := 15, d := d, a := a }
  | .hweight d a => { Fields.blank with op := 16, d := d, a := a }
  | .flip d a b => { Fields.blank with op := 17, d := d, a := a, b := b }
  | .equals d a b => { Fields.blank with op := 18, d := d, a := a, b := b }
  | .invr d a b c => { Fields.blank with op := 19, d := d, a := a, b := b, c := c }
  | .len d a => { Fields.blank with op := 20, d := d, a := a }
  | .encode d a => { Fields.blank with op := 21, d := d, a := a }
  | .decode d a => { Fields.blank with op := 22, d := d, a := a }
  | .clrerr => { Fields.blank with op := 23 }

/-- The number of a word with given fields (30_encoding.md R40). -/
def wordNumber (x : Fields) : Nat :=
  x.op + 32 * x.d + 256 * x.a + 2048 * x.b + 16384 * x.c + 131072 * x.f.toNat + 262144 * x.zero

/-- The encoder: the word of a command. -/
def encode (i : Instr) : Word := BitVec.ofNat 32 (wordNumber (encodeFields i))

/-- One row of spec/opcode_table.json: `pattern` is the table's "match", `mask` has a 1 at every fixed bit. -/
structure TableRow where
  mnemonic : String
  pattern : Word
  mask : Word
deriving DecidableEq, Repr

/-- The first rows of spec/opcode_table.json (opcodes 1 to 12). -/
def tableLow : List TableRow := [
  ⟨"FROMINT", 0x00000001, 0xFFFDF81F⟩,
  ⟨"TOINT", 0x00000002, 0xFFFFF81F⟩,
  ⟨"TOBYTES", 0x00000003, 0xFFFFF8FF⟩,
  ⟨"FROMBYTES", 0x00000004, 0xFFFFFF1F⟩,
  ⟨"INC", 0x00000005, 0xFFFFF81F⟩,
  ⟨"DEC", 0x00000006, 0xFFFFF81F⟩,
  ⟨"ADDK", 0x00000007, 0xFFFFC01F⟩,
  ⟨"SUBK", 0x00000008, 0xFFFFC01F⟩,
  ⟨"GROW", 0x00000009, 0xFFFFC01F⟩,
  ⟨"SHRINK", 0x0000000A, 0xFFFFC01F⟩,
  ⟨"APPEND", 0x0000000B, 0xFFFDF81F⟩,
  ⟨"SLICE", 0x0000000C, 0xFFFE001F⟩]

/-- The other rows of spec/opcode_table.json (opcodes 13 to 23). -/
def tableHigh : List TableRow := [
  ⟨"CONCAT", 0x0000000D, 0xFFFFC01F⟩,
  ⟨"TRIMEND", 0x0000000E, 0xFFFDF81F⟩,
  ⟨"REVERSE", 0x0000000F, 0xFFFFF81F⟩,
  ⟨"HWEIGHT", 0x00000010, 0xFFFFF81F⟩,
  ⟨"FLIP", 0x00000011, 0xFFFFC01F⟩,
  ⟨"EQUALS", 0x00000012, 0xFFFFC01F⟩,
  ⟨"INVR", 0x00000013, 0xFFFE001F⟩,
  ⟨"LEN", 0x00000014, 0xFFFFF81F⟩,
  ⟨"ENCODE", 0x00000015, 0xFFFFF81F⟩,
  ⟨"DECODE", 0x00000016, 0xFFFFF81F⟩,
  ⟨"CLRERR", 0x00000017, 0xFFFFFFFF⟩]

/-- spec/opcode_table.json, all 23 rows. -/
def opcodeTable : List TableRow := tableLow ++ tableHigh

/-- The other form of legality (30_encoding.md R44): `w AND mask = match` for a row of the table. -/
def legalByTable (w : Word) : Bool := opcodeTable.any fun r => w &&& r.mask == r.pattern

/-- What the decoder reads from the low `nbits` bits of `w`, numbered as spec/opcode_table.json numbers them. A command is one
32-bit value on the command port, never bytes (92 D30), so the bits above `nbits` up to bit 31 are 0, and a number that
does not fit 32 bits is no command word. -/
def decodeTableWord (nbits w : Nat) : Option Instr :=
  if w % 2 ^ nbits < 2 ^ 32 then (decode (BitVec.ofNat 32 (w % 2 ^ nbits))).toOption else none

end Sys2Proof
end

