-- ==== Sys2Proof/Machine/Port.lean ====
section
/-! DEFINITION. What the host's moves do (10_state.md R19, R21) and one step of the engine and its host: the host's next move,
or an idle engine. It is written over the function that executes a legal command, so that Step.lean and Parametric.lean
share it. -/

namespace Sys2Proof.Machine

/-- One word on the command port: a legal command is executed (30_encoding.md R47), any other word raises IllegalCommand with
cause 0 and has no other effect (R45; 60_exceptions.md R143, R147). -/
def command (ex : Instr → State → Out) (w : Word) (s : State) : Out :=
  match decode w with
  | .ok i => ex i s
  | .error _ => .next (s.raise .illegalCommand .none)

/-- Reset (10_state.md R20, 70_reset_and_hazards.md R160): the engine's state becomes that after reset. The host's moves to
come and the answers it already has are the host's and stay (log 7). -/
def State.resetEngine (s : State) : State :=
  { State.reset with inputs := s.inputs, responses := s.responses, readouts := s.readouts }

/-- One move of the host (10_state.md R19, R21). A read changes nothing but what the host has been handed; a write of a value
that exceeds a finite capacity has no meaning (00_scope.md R3, log 8). -/
def perform (p : Params) (ex : Instr → State → Out) (m : HostMove) (s : State) : Out :=
  match m with
  | .command w => command ex w s
  | .writeV i x => if fitsV p x then .next (s.writeV i x) else .refused .vectorCapacity
  | .writeS i n => if fitsS p n then .next (s.writeS i n) else .refused .scalarCapacity
  | .writeB ys => if fitsB p ys then .next (s.writeB ys) else .refused .bufferCapacity
  | .readV i => .next (s.hand (.vector (s.readV i)))
  | .readS i => .next (s.hand (.scalar (s.readS i)))
  | .readB => .next (s.hand (.buffer s.readB))
  | .readStatus => .next (s.hand (.status s.status.word))
  | .reset => .next s.resetEngine

/-- One step: the host's next move is performed; with no move left the engine is idle and keeps all its state
(60_exceptions.md R153, 70_reset_and_hazards.md R163). -/
def engineStep (p : Params) (ex : Instr → State → Out) (s : State) : Out :=
  match s.inputs with
  | [] => .next s
  | m :: rest => perform p ex m { s with inputs := rest }

/-- A command word as the host's very next move. -/
def State.issue (w : Word) (s : State) : State := { s with inputs := .command w :: s.inputs }

end Sys2Proof.Machine
end

