-- ==== Sys2Proof/Machine/Step.lean ====
section
/-! DEFINITION. The step, and how a given command word is made the next one to run. -/

namespace Sys2Proof.Machine

/-- One step of the engine and its host at the default parameters. -/
def step (s : State) : Host.Outcome State Fault Refusal := engineStep Config.params exec s

/-- `s` with the low `nbits` bits of `w`, zero-extended to a 32-bit command word, as the host's very next move: the engine
fetches nothing, commands arrive on its command port (10_state.md R15). Log 6. -/
def State.withFetchWord (s : State) (nbits w : Nat) : State := s.issue (BitVec.ofNat 32 (w % 2 ^ nbits))

end Sys2Proof.Machine
end

