-- ==== Sys2Proof/Machine/Parametric.lean ====
section
/-! DEFINITION. The engine for ANY values of the OPEN parameters LMAX, SLEN, BMAX and DEC_ZERO (00_scope.md R2: "A model takes
the OPEN ones as arguments"). `exec` and `step` are this engine at the default parameters (Laws/Step.lean). Log 8. -/

namespace Sys2Proof.Machine

/-- Execution of a legal command by the engine with parameters `p`. -/
def execWith (p : Params) (i : Instr) (s : State) : Out :=
  match i with
  | .fromint d a f => fromintWith p d a f s
  | .toint d a => tointWith p d a s
  | .tobytes a => tobytesWith p a s
  | .frombytes d => frombytesWith p d s
  | .inc d a => incWith p d a s
  | .dec d a => decWith p d a s
  | .addk d a b => addkWith p d a b s
  | .subk d a b => subkWith p d a b s
  | .grow d a b => growWith p d a b s
  | .shrink d a b => shrinkWith p d a b s
  | .append d a f => appendWith p d a f s
  | .slice d a b c => sliceWith p d a b c s
  | .concat d a b => concatWith p d a b s
  | .trimend d a f => trimendWith p d a f s
  | .reverse d a => reverseWith p d a s
  | .hweight d a => hweightWith p d a s
  | .flip d a b => flipWith p d a b s
  | .equals d a b => equalsWith p d a b s
  | .invr d a b c => invrWith p d a b c s
  | .len d a => lenWith p d a s
  | .encode d a => encodeWith p d a s
  | .decode d a => decodeWith p d a s
  | .clrerr => execClrerr s

/-- One step of the engine with parameters `p`. -/
def stepWith (p : Params) (s : State) : Out := engineStep p (execWith p) s

end Sys2Proof.Machine
end

