-- ==== Sys2Proof/Safety.lean ====
section
/-! DEFINITION. The terms claims are stated in: the four ways a command can end, which state is well-formed, which state fits
finite capacities, what a command reads and writes (30_encoding.md R42), when it fails (60_exceptions.md R141). -/

namespace Sys2Proof.Machine

/-! ### How a command ends: the whole next state, every other field unchanged (30_encoding.md R47, 60_exceptions.md R145) -/

/-- `v[d] <- x` and the response ok; nothing else changes. -/
def State.wroteV (s : State) (d : VReg) (x : Bits) : State :=
  { s with vregs := s.vregs.set d x, responses := s.responses ++ [.ok] }

/-- `s[d] <- n` and the response ok; nothing else changes. -/
def State.wroteS (s : State) (d : SReg) (n : Int) : State :=
  { s with sregs := s.sregs.set d n, responses := s.responses ++ [.ok] }

/-- `B <- ys` (content and length) and the response ok; nothing else changes. -/
def State.wroteB (s : State) (ys : List Byte) : State :=
  { s with buf := Memory.ofBytes ys, responses := s.responses ++ [.ok] }

/-- An error was raised: its response, STATUS latched if no error was latched, and nothing else. -/
def State.failed (s : State) (k : Kind) (c : Cause) : State :=
  { s with
    status := if s.status.kind = .none then { kind := k, cause := c } else s.status
    responses := s.responses ++ [.error k c] }

/-! ### Well-formed states -/

/-- STATUS as 10_state.md R16 allows it: CAUSE is 0 exactly when KIND is not DomainError. -/
def Status.wf (st : Status) : Bool := (st.kind == .domainError) == (st.cause != .none)

/-- The buffer has its canonical form (20_memory.md R30) and STATUS is one R16 allows. -/
def State.wf (s : State) : Bool := s.buf.wf && s.status.wf

/-- Every register and the buffer fit the capacities of `p` (00_scope.md R2, R3; 10_state.md R11, R13, R14). -/
def State.Fits (p : Params) (s : State) : Prop :=
  (∀ i, fitsV p (s.readV i) = true) ∧ (∀ i, fitsS p (s.readS i) = true) ∧ fitsB p s.readB = true

/-! ### What a command reads and writes (30_encoding.md R42) -/

/-- The vector register a command writes. -/
def destV : Instr → Option VReg
  | .fromint d _ _ | .frombytes d | .inc d _ | .dec d _ | .addk d _ _ | .subk d _ _ | .grow d _ _ | .shrink d _ _
  | .append d _ _ | .slice d _ _ _ | .concat d _ _ | .trimend d _ _ | .reverse d _ | .flip d _ _ | .invr d _ _ _
  | .encode d _ => some d
  | .toint .. | .tobytes .. | .hweight .. | .equals .. | .len .. | .decode .. | .clrerr => none

/-- The scalar register a command writes. -/
def destS : Instr → Option SReg
  | .toint d _ | .hweight d _ | .equals d _ _ | .len d _ | .decode d _ => some d
  | .fromint .. | .tobytes .. | .frombytes .. | .inc .. | .dec .. | .addk .. | .subk .. | .grow .. | .shrink ..
  | .append .. | .slice .. | .concat .. | .trimend .. | .reverse .. | .flip .. | .invr .. | .encode .. | .clrerr => none

/-- The command writes the byte buffer: TOBYTES alone (10_state.md R14). -/
def storesB : Instr → Bool
  | .tobytes _ => true
  | .fromint .. | .toint .. | .frombytes .. | .inc .. | .dec .. | .addk .. | .subk .. | .grow .. | .shrink ..
  | .append .. | .slice .. | .concat .. | .trimend .. | .reverse .. | .hweight .. | .flip .. | .equals .. | .invr ..
  | .len .. | .encode .. | .decode .. | .clrerr => false

/-- The vector registers a command reads. -/
def readsV : Instr → List VReg
  | .toint _ a | .tobytes a | .inc _ a | .dec _ a | .addk _ a _ | .subk _ a _ | .grow _ a _ | .shrink _ a _
  | .append _ a _ | .slice _ a _ _ | .trimend _ a _ | .reverse _ a | .hweight _ a | .flip _ a _ | .invr _ a _ _
  | .len _ a | .decode _ a => [a]
  | .concat _ a b | .equals _ a b => [a, b]
  | .fromint .. | .frombytes .. | .encode .. | .clrerr => []

/-- The scalar registers a command reads. -/
def readsS : Instr → List SReg
  | .fromint _ a _ | .encode _ a => [a]
  | .addk _ _ b | .subk _ _ b | .grow _ _ b | .shrink _ _ b | .flip _ _ b => [b]
  | .slice _ _ b c | .invr _ _ b c => [b, c]
  | .toint .. | .tobytes .. | .frombytes .. | .inc .. | .dec .. | .append .. | .concat .. | .trimend .. | .reverse ..
  | .hweight .. | .equals .. | .len .. | .decode .. | .clrerr => []

/-- The command reads the byte buffer: FROMBYTES alone (10_state.md R14). -/
def loadsB : Instr → Bool
  | .frombytes _ => true
  | .fromint .. | .toint .. | .tobytes .. | .inc .. | .dec .. | .addk .. | .subk .. | .grow .. | .shrink ..
  | .append .. | .slice .. | .concat .. | .trimend .. | .reverse .. | .hweight .. | .flip .. | .equals .. | .invr ..
  | .len .. | .encode .. | .decode .. | .clrerr => false

/-! ### When a command raises DomainError (60_exceptions.md R141) -/

/-- The condition of the row DEC: no 1 bit, and DEC_ZERO = Error or the zero-length vector. -/
def DecrementFails (z : DecZero) (x : Bits) : Prop := (∀ b ∈ x, b = false) ∧ (z = .error ∨ x.length = 0)

/-- The table of 60_exceptions.md R141: with parameters `p`, command `i` raises DomainError with cause `c` in state `s`. -/
def RaisesDomain (p : Params) (i : Instr) (c : Cause) (s : State) : Prop :=
  match i with
  | .fromint _ a _ | .encode _ a => c = .negInteger ∧ s.readS a < 0
  | .shrink _ a b =>
    (c = .negCount ∧ s.readS b < 0) ∨ (c = .shrinkRange ∧ ((s.readV a).length : Int) < s.readS b)
  | .slice _ a b k =>
    c = .sliceRange ∧ (s.readS b < 0 ∨ s.readS k < 0 ∨ ((s.readV a).length : Int) < s.readS b + s.readS k)
  | .flip _ a b => c = .flipRange ∧ (s.readS b < 0 ∨ ((s.readV a).length : Int) ≤ s.readS b)
  | .grow _ _ b | .addk _ _ b => c = .negCount ∧ s.readS b < 0
  | .dec _ a => c = .decZero ∧ DecrementFails p.decZero (s.readV a)
  | .subk _ a b =>
    (c = .negCount ∧ s.readS b < 0) ∨
      (c = .decZero ∧ ∃ (k : Nat) (x : Bits), (k : Int) < s.readS b ∧
        subtractConstant p.decZero (s.readV a) k = .ok x ∧ DecrementFails p.decZero x)
  | .invr _ a b k =>
    c = .invrRange ∧ (s.readS b < 0 ∨ s.readS k < 0 ∨ ((s.readV a).length : Int) < s.readS b + s.readS k)
  | .toint .. | .tobytes .. | .frombytes .. | .inc .. | .append .. | .concat .. | .trimend .. | .reverse .. | .hweight ..
  | .equals .. | .len .. | .decode .. | .clrerr => False

end Sys2Proof.Machine
end

