-- ==== Sys2Proof/Certificates/Slice0/Obligations.lean ====
section
/-! DEFINITION. The statements for the provers, each formalising rules of spec/. `s.wroteV`, `s.wroteS`, `s.wroteB` and
`s.failed` (Safety.lean) are whole next states, so each equation with one of them is result, completion and frame at once. -/

open Sys2Proof Sys2Proof.Machine

/-! ### Encoding -/

/-- Example words of 30_encoding.md section 8, one per family: each decodes to the command written beside it. -/
def Obligations.SpecWordsDecode : Prop :=
  decode 0x00020001 = .ok (.fromint 0 0 true) ∧
  decode 0x00000203 = .ok (.tobytes 2) ∧
  decode 0x00000084 = .ok (.frombytes 4) ∧
  decode 0x00000928 = .ok (.subk 1 1 1) ∧
  decode 0x0002012B = .ok (.append 1 1 true) ∧
  decode 0x0001626C = .ok (.slice 3 2 4 5) ∧
  decode 0x0000E853 = .ok (.invr 2 0 5 3) ∧
  decode 0x00001AD2 = .ok (.equals 6 2 3) ∧
  decode 0x000003F6 = .ok (.decode 7 3) ∧
  decode 0x00000017 = .ok .clrerr

/-- Decode and encode agree: every command, with every operand at every value its fields admit, is read back from its word
(30_encoding.md R40 to R44). -/
def Obligations.DecodeOfEncodeIsIdentity : Prop :=
  ∀ i : Instr, decode (encode i) = .ok i

/-- 30_encoding.md R46: every word is exactly one legal command or illegal; two different legal words are different commands;
the legal words number 12689. -/
def Obligations.DecodingTotalUnambiguousCounted : Prop :=
  (∀ w : Word, (∃ i, decode w = .ok i ∧ ∀ j, decode w = .ok j → j = i) ∨ (∃ e, decode w = .error e)) ∧
  (∀ (v w : Word) (i : Instr), decode v = .ok i → decode w = .ok i → v = w) ∧
  (∃ ws : List Word, ws.Nodup ∧ ws.length = 12689 ∧ ∀ w : Word, w ∈ ws ↔ ∃ i, decode w = .ok i)

/-- 30_encoding.md R44: a word is a legal command exactly when its opcode has a format, w[31:18] is 0 and every field the
format does not use is 0; equivalently `w AND mask = match` for a row of opcode_table.json, whose masks are those of the
formats. -/
def Obligations.LegalByFieldsIffByMask : Prop :=
  (∀ w : Word,
    ((∃ i, decode w = .ok i) ↔ legal w = true) ∧
    (legal w = true ↔ legalByTable w = true) ∧
    (legal w = true ↔ ∃ fmt build, opcodeRow (w.toNat % 32) = some (fmt, build) ∧ w.toNat / 262144 = 0 ∧
      (fmt.usesD = false → w.toNat / 32 % 8 = 0) ∧ (fmt.usesA = false → w.toNat / 256 % 8 = 0) ∧
      (fmt.usesB = false → w.toNat / 2048 % 8 = 0) ∧ (fmt.usesC = false → w.toNat / 16384 % 8 = 0) ∧
      (fmt.usesF = false → w.toNat / 131072 % 2 = 0))) ∧
  (∀ r ∈ opcodeTable, ∃ fmt build, opcodeRow r.pattern.toNat = some (fmt, build) ∧
    r.mask = match fmt with
      | .none => 0xFFFFFFFF | .d => 0xFFFFFF1F | .a => 0xFFFFF8FF | .da => 0xFFFFF81F | .daf => 0xFFFDF81F
      | .dab => 0xFFFFC01F | .dabc => 0xFFFE001F)

/-- 30_encoding.md R45, 60_exceptions.md R143: opcodes 0 and 24..31, a nonzero w[31:18], and a nonzero unused field (no row
of the table matches) each make the word illegal; executing it changes no register and no byte of `B`, is answered by the
error IllegalCommand with cause 0, and latches it if nothing is latched. -/
def Obligations.IllegalWordRaisesIllegalCommand : Prop :=
  ∀ (s : State) (w : Word) (rest : List HostMove), s.inputs = .command w :: rest →
    (w.toNat % 32 = 0 ∨ 24 ≤ w.toNat % 32 ∨ w.toNat / 262144 ≠ 0 ∨ legalByTable w = false) →
    step s = .next ({ s with inputs := rest }.failed .illegalCommand .none)

/-! ### The step, the host's moves, reset -/

/-- A step runs the decoded command: the word leaves the command port and the step is `exec` of the command
(10_state.md R15, R21; 30_encoding.md R47). -/
def Obligations.StepRunsDecodedCommand : Prop :=
  ∀ (s : State) (w : Word) (rest : List HostMove) (i : Instr),
    s.inputs = .command w :: rest → decode w = .ok i → step s = exec i { s with inputs := rest }

/-- 10_state.md R19, 60_exceptions.md R153: with no host move left the engine is idle and keeps all its state; a host write
sets exactly the register or the buffer named; a host read changes nothing and hands out the value (STATUS as its word). That the host's moves and the values handed out are the
lists `inputs` and `readouts` is the model's form of the register access port (logs 6, 7). -/
def Obligations.HostAccessesBetweenCommands : Prop :=
  ∀ (s : State) (rest : List HostMove),
    (s.inputs = [] → step s = .next s) ∧
    (∀ i x, s.inputs = .writeV i x :: rest →
      step s = .next { s with inputs := rest, vregs := s.vregs.set i x }) ∧
    (∀ i n, s.inputs = .writeS i n :: rest →
      step s = .next { s with inputs := rest, sregs := s.sregs.set i n }) ∧
    (∀ ys, s.inputs = .writeB ys :: rest →
      step s = .next { s with inputs := rest, buf := Memory.ofBytes ys }) ∧
    (∀ i, s.inputs = .readV i :: rest →
      step s = .next { s with inputs := rest, readouts := s.readouts ++ [.vector (s.readV i)] }) ∧
    (∀ i, s.inputs = .readS i :: rest →
      step s = .next { s with inputs := rest, readouts := s.readouts ++ [.scalar (s.readS i)] }) ∧
    (s.inputs = .readB :: rest →
      step s = .next { s with inputs := rest, readouts := s.readouts ++ [.buffer s.readB] }) ∧
    (s.inputs = .readStatus :: rest →
      step s = .next { s with inputs := rest, readouts := s.readouts ++ [.status s.status.word] })

/-- 10_state.md R20, 70_reset_and_hazards.md R160: after reset STATUS is 0 (KIND None, CAUSE 0, bits 7:6 zero), asserting reset
makes it 0 from every state, and the reset itself gives no response. These are the clauses the spec states. The clauses on the
model's own lists are the model's choice, not the spec's: that the host's moves to come are a list, empty at State.reset, and
that an asserted reset takes itself off that list and leaves the host's further moves there (log 6); that the responses and
readouts recorded before it stay recorded (log 7). What the registers hold after reset is also the model's choice (logs 2, 3,
4), and nothing is said of it here. -/
def Obligations.ResetClearsStatus : Prop :=
  (State.reset.status = { kind := .none, cause := .none } ∧ State.reset.status.word = 0 ∧ State.reset.inputs = []) ∧
  (∀ (s : State) (rest : List HostMove), s.inputs = .reset :: rest →
    ∃ t, step s = .next t ∧ t.status = { kind := .none, cause := .none } ∧ t.inputs = rest ∧
      t.responses = s.responses ∧ t.readouts = s.readouts)

/-- 70_reset_and_hazards.md R164: every command terminates, for every value of its operands, with either `ok` or an error; and
every step answers a next state. -/
def Obligations.EveryCommandTerminates : Prop :=
  (∀ (i : Instr) (s : State), ∃ t, exec i s = .next t ∧
    (t.responses = s.responses ++ [.ok] ∨ ∃ k c, t.responses = s.responses ++ [.error k c])) ∧
  (∀ s : State, ∃ t, step s = .next t)

/-! ### Invariants and whole-machine rules -/

/-- State.reset meets the invariant that `StepKeepsInvariant` is about. (The one byte the buffer holds there is the model's
choice, log 4.) -/
def Obligations.ResetMeetsInvariant : Prop := State.reset.wf = true

/-- An invariant every step keeps, from every state: the byte buffer has its canonical form (its addresses are exactly
0 .. len(B)-1, 20_memory.md R30), and STATUS has CAUSE 0 exactly when KIND is not DomainError (10_state.md R16). -/
def Obligations.StepKeepsInvariant : Prop :=
  ∀ s t : State, s.wf = true → step s = .next t → t.wf = true

/-- For every value of the OPEN parameters, a step keeps every vector within LMAX, every scalar within SLEN and the buffer
within BMAX (10_state.md R11, R13, R14; 00_scope.md R2, R3). The first premise is needed for the host's reset: the values the
model names at reset (logs 2, 3, 4) must fit the capacities. -/
def Obligations.StepKeepsCapacities : Prop :=
  ∀ (p : Params) (s t : State), State.reset.Fits p → s.Fits p → stepWith p s = .next t → t.Fits p

/-- 00_scope.md R3: a result that does not fit a finite capacity is never truncated, wrapped or saturated, and the step is
refused; a result that fits is the one the unbounded engine gives. At the default (unbounded) parameters the case does not
arise. -/
def Obligations.ResultBeyondCapacityIsRefused : Prop :=
  (∀ (p : Params) (i : Instr) (s : State), s.Fits p →
    ∃ t, execWith (.unbounded p.decZero) i s = .next t ∧
      (t.Fits p → execWith p i s = .next t) ∧
      (¬ t.Fits p → ∃ r, execWith p i s = .refused r)) ∧
  (∀ (i : Instr) (s : State) (r : Refusal), exec i s ≠ .refused r)

/-- 10_state.md R16, 60_exceptions.md R142: the word of STATUS has KIND in bits 1:0, CAUSE in bits 5:2 and zeros in bits 7:6;
KIND 3 and CAUSE 8..15 are never produced; the codes are those of the tables. -/
def Obligations.StatusWordLayout : Prop :=
  (∀ st : Status, st.word.toNat % 4 = st.kind.code ∧ st.word.toNat / 4 % 16 = st.cause.code ∧ st.word.toNat / 64 = 0 ∧
    st.kind.code < 3 ∧ st.cause.code < 8) ∧
  (∀ st : Status, st.wf = true → (st.kind = .none ∨ st.kind = .illegalCommand) → st.word.toNat / 4 % 16 = 0) ∧
  [Kind.none, .domainError, .illegalCommand].map Kind.code = [0, 1, 2] ∧
  [Cause.none, .negInteger, .shrinkRange, .sliceRange, .flipRange, .negCount, .decZero, .invrRange].map Cause.code
    = [0, 1, 2, 3, 4, 5, 6, 7]

/-- 10_state.md R16, R19, 60_exceptions.md R145, R150: STATUS is sticky. A step changes it only by reset, by the command CLRERR,
or, when nothing is latched, by the error of the command it completes. -/
def Obligations.StatusChangesOnlyByErrorClrerrReset : Prop :=
  ∀ s t : State, step s = .next t → t.status ≠ s.status →
    (∃ rest, s.inputs = .reset :: rest ∧ t.status = { kind := .none, cause := .none }) ∨
    (∃ rest, s.inputs = .command 0x00000017 :: rest ∧ t.status = { kind := .none, cause := .none }) ∨
    (s.status.kind = .none ∧ ∃ k c, t.responses = s.responses ++ [.error k c] ∧ t.status = { kind := k, cause := c })

/-- 10_state.md R21, 60_exceptions.md R145 (2), R150: there is one response per command and none for anything else, and no step
takes an earlier one back. That the responses are kept as a list, which a reset too leaves as it is, is the model's choice
(log 7). -/
def Obligations.OneResponsePerCommand : Prop :=
  ∀ s t : State, step s = .next t →
    ((∃ w rest, s.inputs = .command w :: rest) → ∃ r, t.responses = s.responses ++ [r]) ∧
    ((¬ ∃ w rest, s.inputs = .command w :: rest) → t.responses = s.responses)

/-- 10_state.md R16, 60_exceptions.md R145, R150 over a run of any length from any state with nothing latched, in which the host
neither resets nor issues CLRERR: STATUS at the end is the FIRST error among the run's responses, and 0 exactly if there is
none. -/
def Obligations.LatchHoldsFirstErrorOfRun : Prop :=
  ∀ (n : Nat) (s t : State), s.status = { kind := .none, cause := .none } →
    (∀ m ∈ s.inputs, m ≠ .reset ∧ m ≠ .command 0x00000017) →
    Sys2Proof.core.run n s = .next t →
    ∃ rs, t.responses = s.responses ++ rs ∧
      ((t.status = { kind := .none, cause := .none } ∧ ∀ r ∈ rs, r = .ok) ∨
       (∃ before k c after, rs = before ++ .error k c :: after ∧ (∀ r ∈ before, r = .ok) ∧ k ≠ .none ∧
          t.status = { kind := k, cause := c }))

/-! ### Errors -/

/-- 60_exceptions.md R145: when a command ends with an error of kind K and cause C, no register and no byte of `B` is written,
the response is that error, and STATUS latches (K, C) exactly if nothing was latched. For every value of the parameters. -/
def Obligations.ErrorHasNoEffectButResponseAndLatch : Prop :=
  (∀ (p : Params) (i : Instr) (s t : State) (k : Kind) (c : Cause),
    execWith p i s = .next t → t.responses = s.responses ++ [.error k c] →
    k = .domainError ∧ c ≠ .none ∧ t = s.failed k c) ∧
  (∀ (p : Params) (s t : State) (w : Word) (rest : List HostMove) (k : Kind) (c : Cause),
    s.inputs = .command w :: rest → stepWith p s = .next t → t.responses = s.responses ++ [.error k c] →
    t = { s with inputs := rest }.failed k c)

/-- 60_exceptions.md R141: DomainError is raised exactly in the cases of the table, each with its cause, for either setting of
DEC_ZERO; for SUBK with DEC_ZERO = Error that is exactly when `s[b] > val(v[a])`. -/
def Obligations.DomainErrorExactlyByTable : Prop :=
  (∀ (z : DecZero) (i : Instr) (s : State) (c : Cause),
    (execWith (.unbounded z) i s = .next (s.failed .domainError c)) ↔
      RaisesDomain (.unbounded z) i c s) ∧
  (∀ (s : State) (d a : VReg) (b : SReg), 0 ≤ s.readS b →
    (exec (.subk d a b) s = .next (s.failed .domainError .decZero) ↔ (val (s.readV a) : Int) < s.readS b))

/-! ### Frames -/

/-- The frame of every command (10_state.md R12, R13, R14; 30_encoding.md R47; 20_memory.md R30): a next state leaves every
vector register but the destination, every scalar register but the destination, and, unless the command is TOBYTES, every
byte and the length of the buffer as before; it leaves the host's moves and readouts, adds one response, and an ok
response of any command but CLRERR leaves STATUS. -/
def Obligations.EveryCommandWritesOnlyItsDestination : Prop :=
  ∀ (i : Instr) (s t : State), exec i s = .next t →
    (∀ j, destV i ≠ some j → t.readV j = s.readV j) ∧
    (∀ j, destS i ≠ some j → t.readS j = s.readS j) ∧
    (storesB i = false → t.buf.length = s.buf.length ∧ ∀ a, t.buf.read a = s.buf.read a) ∧
    t.inputs = s.inputs ∧ t.readouts = s.readouts ∧
    ∃ r, t.responses = s.responses ++ [r] ∧ (r = .ok → i ≠ .clrerr → t.status = s.status)

/-- 10_state.md R18, 30_encoding.md R47, 70_reset_and_hazards.md R161: a command's response and result depend on the source
registers its format names (and the buffer for FROMBYTES) alone: not on STATUS, on any other register, or on anything
earlier. -/
def Obligations.ResultDependsOnlyOnSources : Prop :=
  ∀ (i : Instr) (s s' : State),
    (∀ j ∈ readsV i, s.readV j = s'.readV j) → (∀ j ∈ readsS i, s.readS j = s'.readS j) →
    (loadsB i = true → s.readB = s'.readB) →
    ∃ t t' r, exec i s = .next t ∧ exec i s' = .next t' ∧
      t.responses = s.responses ++ [r] ∧ t'.responses = s'.responses ++ [r] ∧
      (r = .ok → (∀ d, destV i = some d → t.readV d = t'.readV d) ∧ (∀ d, destS i = some d → t.readS d = t'.readS d) ∧
        (storesB i = true → t.buf = t'.buf))

/-- 20_memory.md R30: in a buffer of the canonical form the byte addresses are exactly 0 .. len(B)-1, and `B[a]` is byte `a`
of its content; no other address reads as anything. -/
def Obligations.BufferAddressesAreItsIndices : Prop :=
  ∀ m : Memory, m.wf = true → ∀ a, m.read a = m.bytes[a]? ∧ ((m.read a).isSome = true ↔ a < m.length)

/-! ### Conversion -/

/-- `blen` is the number of bits (00_scope.md section 5.2): 0 for 0, else the `k` with `2^(k-1) <= v < 2^k`. -/
def Obligations.BlenCountsBits : Prop :=
  blen 0 = 0 ∧ ∀ v k : Nat, 0 < v → (blen v = k ↔ 1 ≤ k ∧ 2 ^ (k - 1) ≤ v ∧ v < 2 ^ k)

/-- 40_convert.md R60, R61: FROMINT writes the binary digits of `s[a]`: minimal (length max(1, blen)) when f, else in the fewest
whole bytes, at least one; a negative `s[a]` raises NEG_INTEGER. -/
def Obligations.FromintWritesBinaryDigits : Prop :=
  ∀ (s : State) (d : VReg) (a : SReg) (f : Bool),
    (encode (.fromint d a f)).toNat = 1 + 32 * d + 256 * a + 131072 * f.toNat ∧
    (∀ v : Nat, s.readS a = v → ∃ r, exec (.fromint d a f) s = .next (s.wroteV d r) ∧
      r.length = (if f then max 1 (blen v) else 8 * max 1 ((blen v + 7) / 8)) ∧
      (∀ i < r.length, r[i]? = some (v.testBit i)) ∧ val r = v ∧ (f = true → minimal r = true)) ∧
    (s.readS a < 0 → exec (.fromint d a f) s = .next (s.failed .domainError .negInteger))

/-- 40_convert.md R62, R63: TOINT writes the value of `v[a]`, the sum of `2^i` over its set bits (0 for the zero-length
vector); it never fails. -/
def Obligations.TointWritesWeightedSum : Prop :=
  ∀ (s : State) (d : SReg) (a : VReg),
    (encode (.toint d a)).toNat = 2 + 32 * d + 256 * a ∧
    exec (.toint d a) s = .next (s.wroteS d
      ((∑ i ∈ Finset.range (s.readV a).length, if (s.readV a)[i]? = some true then 2 ^ i else 0 : Nat) : Int))

/-- 20_memory.md R31, 40_convert.md R64, R65: TOBYTES replaces the buffer by max(1, ceil(n/8)) bytes; bit `i` of byte `j` is
vector bit `8*j + i`, 0 where there is none; the bytes' little-endian integer is the vector's value. -/
def Obligations.TobytesPacksLittleEndian : Prop :=
  ∀ (s : State) (a : VReg),
    (encode (.tobytes a)).toNat = 3 + 256 * a ∧
    ∃ ys, exec (.tobytes a) s = .next (s.wroteB ys) ∧
      ys.length = max 1 (((s.readV a).length + 7) / 8) ∧
      (∀ j y, ys[j]? = some y → ∀ i < 8, y.getLsbD i = ((s.readV a)[8 * j + i]?).getD false) ∧
      Nat.ofDigits 256 (ys.map BitVec.toNat) = val (s.readV a) ∧
      ((s.wroteB ys).buf.wf = true ∧ ∀ j, (s.wroteB ys).buf.read j = ys[j]?)

/-- 20_memory.md R31, R32, 40_convert.md R66, R67: FROMBYTES writes the vector of length 8 * len(B) whose bit `8*j + i` is bit
`i` of byte `j`; its value is the bytes' little-endian integer. A vector packed and unpacked keeps its value and its bits, and
has 8 * max(1, ceil(n/8)) of them. -/
def Obligations.FrombytesUnpacksBuffer : Prop :=
  (∀ (s : State) (d : VReg),
    (encode (.frombytes d)).toNat = 4 + 32 * d ∧
    ∃ r, exec (.frombytes d) s = .next (s.wroteV d r) ∧ r.length = 8 * s.readB.length ∧
      (∀ j y, s.readB[j]? = some y → ∀ i < 8, r[8 * j + i]? = some (y.getLsbD i)) ∧
      val r = Nat.ofDigits 256 (s.readB.map BitVec.toNat)) ∧
  (∀ (s : State) (a d : VReg), ∃ t r, exec (.tobytes a) s = .next t ∧ exec (.frombytes d) t = .next (t.wroteV d r) ∧
    r.length = 8 * max 1 (((s.readV a).length + 7) / 8) ∧ val r = val (s.readV a) ∧
    r.take (s.readV a).length = s.readV a)

/-! ### Increment and decrement -/

/-- 41_incdec.md R70, R71: INC ripples the carry to the least 0 bit and keeps the length; if every bit is 1 the result is zeros
and a new top bit 1. The value grows by one. It never fails. -/
def Obligations.IncRipplesCarry : Prop :=
  ∀ (s : State) (d a : VReg),
    (encode (.inc d a)).toNat = 5 + 32 * d + 256 * a ∧
    ∃ r, exec (.inc d a) s = .next (s.wroteV d r) ∧
      (∀ j : Nat, (s.readV a)[j]? = some false → (∀ i < j, (s.readV a)[i]? = some true) →
        r.length = (s.readV a).length ∧ (∀ i < j, r[i]? = some false) ∧ r[j]? = some true ∧
        ∀ i : Nat, j < i → r[i]? = (s.readV a)[i]?) ∧
      ((∀ b ∈ s.readV a, b = true) → r = List.replicate (s.readV a).length false ++ [true]) ∧
      val r = val (s.readV a) + 1 ∧ r.length = max (s.readV a).length (blen (val (s.readV a) + 1))

/-- 41_incdec.md R72 (and the default of R73): DEC of a vector with some 1 bit ripples the borrow to the least 1 bit, keeps the
length, and lowers the value by one; of a vector with none it raises DEC_ZERO. -/
def Obligations.DecRipplesBorrow : Prop :=
  ∀ (s : State) (d a : VReg),
    (true ∈ s.readV a → ∃ r, exec (.dec d a) s = .next (s.wroteV d r) ∧
      (∀ j : Nat, (s.readV a)[j]? = some true → (∀ i < j, (s.readV a)[i]? = some false) →
        (∀ i < j, r[i]? = some true) ∧ r[j]? = some false ∧ ∀ i : Nat, j < i → r[i]? = (s.readV a)[i]?) ∧
      r.length = (s.readV a).length ∧ val r + 1 = val (s.readV a)) ∧
    (true ∉ s.readV a → exec (.dec d a) s = .next (s.failed .domainError .decZero))

/-- 41_incdec.md R73, R74: DEC under either setting of DEC_ZERO. With a 1 bit present both settings give the decrement; with
none, `Error` raises, `Shrink` gives all ones, one bit shorter, and raises for the zero-length vector. -/
def Obligations.DecOfZeroFollowsParameter : Prop :=
  ∀ (z : DecZero) (s : State) (d a : VReg),
    (encode (.dec d a)).toNat = 6 + 32 * d + 256 * a ∧
    (true ∈ s.readV a → ∃ r, r.length = (s.readV a).length ∧ val r + 1 = val (s.readV a) ∧
      execWith (.unbounded z) (.dec d a) s = .next (s.wroteV d r)) ∧
    (true ∉ s.readV a → z = .shrink → 1 ≤ (s.readV a).length →
      execWith (.unbounded z) (.dec d a) s =
        .next (s.wroteV d (List.replicate ((s.readV a).length - 1) true))) ∧
    (true ∉ s.readV a → (z = .error ∨ (s.readV a).length = 0) →
      execWith (.unbounded z) (.dec d a) s = .next (s.failed .domainError .decZero)) ∧
    (z = .error → exec (.dec d a) s = execWith (.unbounded z) (.dec d a) s)

/-- 41_incdec.md R75, R76: ADDK is `s[b]` increments; the result is the one vector of value `val + k` and of length
max(n, blen(val + k)), for every `k >= 0`; a negative count raises NEG_COUNT. -/
def Obligations.AddkAddsCount : Prop :=
  ∀ (s : State) (d a : VReg) (b : SReg),
    (encode (.addk d a b)).toNat = 7 + 32 * d + 256 * a + 2048 * b ∧
    (∀ k : Nat, s.readS b = k → ∃ r, exec (.addk d a b) s = .next (s.wroteV d r) ∧
      r = increment^[k] (s.readV a) ∧
      val r = val (s.readV a) + k ∧ r.length = max (s.readV a).length (blen (val (s.readV a) + k)) ∧
      ∀ x : Bits, val x = val r → x.length = r.length → x = r) ∧
    (s.readS b < 0 → exec (.addk d a b) s = .next (s.failed .domainError .negCount))

/-- 41_incdec.md R77, R78 at the default DEC_ZERO = Error: SUBK keeps the length and lowers the value by `k` when `k <= val`,
raises DEC_ZERO when `k > val`, and NEG_COUNT when `k < 0`. -/
def Obligations.SubkSubtractsCount : Prop :=
  ∀ (s : State) (d a : VReg) (b : SReg),
    (encode (.subk d a b)).toNat = 8 + 32 * d + 256 * a + 2048 * b ∧
    (∀ k : Nat, s.readS b = k → k ≤ val (s.readV a) → ∃ r, exec (.subk d a b) s = .next (s.wroteV d r) ∧
      r.length = (s.readV a).length ∧ val r + k = val (s.readV a)) ∧
    ((val (s.readV a) : Int) < s.readS b → exec (.subk d a b) s = .next (s.failed .domainError .decZero)) ∧
    (s.readS b < 0 → exec (.subk d a b) s = .next (s.failed .domainError .negCount))

/-- 41_incdec.md R77, R78 under either setting of DEC_ZERO: SUBK is `k` sequential decrements. While `k <= val` no step meets
a vector of zeros; past that, `Error` raises DEC_ZERO, and under `Shrink` a vector of length n >= 1 goes on from `ones(n - 1)`
with the remaining `k - val - 1` decrements and the zero-length vector raises DEC_ZERO; `k < 0` raises NEG_COUNT. -/
def Obligations.SubkFollowsParameter : Prop :=
  (∀ (d a : VReg) (b : SReg), (encode (.subk d a b)).toNat = 8 + 32 * d + 256 * a + 2048 * b) ∧
  (∀ (z : DecZero) (x : Bits) (k : Nat), k ≤ val x →
    ∃ r, subtractConstant z x k = .ok r ∧ r.length = x.length ∧ val r + k = val x) ∧
  (∀ (x : Bits) (k : Nat), val x < k → subtractConstant .error x k = .error .decZero) ∧
  (∀ (x : Bits) (k : Nat), val x < k → 1 ≤ x.length →
    subtractConstant .shrink x k = subtractConstant .shrink (List.replicate (x.length - 1) true) (k - val x - 1)) ∧
  (∀ (z : DecZero) (k : Nat), 0 < k → subtractConstant z [] k = .error .decZero) ∧
  (∀ (z : DecZero) (s : State) (d a : VReg) (b : SReg) (k : Nat), s.readS b = k →
    execWith (.unbounded z) (.subk d a b) s =
      match subtractConstant z (s.readV a) k with
      | .ok r => .next (s.wroteV d r)
      | .error c => .next (s.failed .domainError c)) ∧
  (∀ (z : DecZero) (s : State) (d a : VReg) (b : SReg), s.readS b < 0 →
    execWith (.unbounded z) (.subk d a b) s = .next (s.failed .domainError .negCount))

/-! ### Length -/

/-- 42_length.md R80, R81: GROW keeps the bits at their indices and adds `s[b]` zeros at the high end; the value is unchanged; a
negative count raises NEG_COUNT. -/
def Obligations.GrowAddsHighZeros : Prop :=
  ∀ (s : State) (d a : VReg) (b : SReg),
    (encode (.grow d a b)).toNat = 9 + 32 * d + 256 * a + 2048 * b ∧
    (∀ k : Nat, s.readS b = k → ∃ r, exec (.grow d a b) s = .next (s.wroteV d r) ∧
      r.length = (s.readV a).length + k ∧ (∀ i < (s.readV a).length, r[i]? = (s.readV a)[i]?) ∧
      (∀ i, (s.readV a).length ≤ i → i < r.length → r[i]? = some false) ∧ val r = val (s.readV a)) ∧
    (s.readS b < 0 → exec (.grow d a b) s = .next (s.failed .domainError .negCount))

/-- 42_length.md R82, R83: SHRINK drops the top `s[b]` bits whatever they are (the value becomes `val mod 2^(n - k)`); more
than the length raises SHRINK_RANGE, a negative count NEG_COUNT. -/
def Obligations.ShrinkDropsTopBits : Prop :=
  ∀ (s : State) (d a : VReg) (b : SReg),
    (encode (.shrink d a b)).toNat = 10 + 32 * d + 256 * a + 2048 * b ∧
    (∀ k : Nat, s.readS b = k → k ≤ (s.readV a).length → ∃ r, exec (.shrink d a b) s = .next (s.wroteV d r) ∧
      r.length = (s.readV a).length - k ∧ (∀ i < r.length, r[i]? = (s.readV a)[i]?) ∧
      val r = val (s.readV a) % 2 ^ ((s.readV a).length - k)) ∧
    (((s.readV a).length : Int) < s.readS b → exec (.shrink d a b) s = .next (s.failed .domainError .shrinkRange)) ∧
    (s.readS b < 0 → exec (.shrink d a b) s = .next (s.failed .domainError .negCount))

/-- 42_length.md R84, R85: APPEND adds the top bit f and keeps the others; the value grows by `f * 2^n`; it never fails. -/
def Obligations.AppendAddsTopBit : Prop :=
  ∀ (s : State) (d a : VReg) (f : Bool),
    (encode (.append d a f)).toNat = 11 + 32 * d + 256 * a + 131072 * f.toNat ∧
    ∃ r, exec (.append d a f) s = .next (s.wroteV d r) ∧ r.length = (s.readV a).length + 1 ∧
      r[(s.readV a).length]? = some f ∧ (∀ i < (s.readV a).length, r[i]? = (s.readV a)[i]?) ∧
      val r = val (s.readV a) + f.toNat * 2 ^ (s.readV a).length

/-! ### Selection -/

/-- 43_select.md R90, R91: SLICE copies the half-open range [s[b], s[b] + s[c]) renumbered from 0; a range not within the vector
raises SLICE_RANGE. -/
def Obligations.SliceCopiesHalfOpenRange : Prop :=
  ∀ (s : State) (d a : VReg) (b c : SReg),
    (encode (.slice d a b c)).toNat = 12 + 32 * d + 256 * a + 2048 * b + 16384 * c ∧
    (∀ start count : Nat, s.readS b = start → s.readS c = count → start + count ≤ (s.readV a).length →
      ∃ r, exec (.slice d a b c) s = .next (s.wroteV d r) ∧ r.length = count ∧
        ∀ j < count, r[j]? = (s.readV a)[start + j]?) ∧
    (s.readS b < 0 ∨ s.readS c < 0 ∨ ((s.readV a).length : Int) < s.readS b + s.readS c →
      exec (.slice d a b c) s = .next (s.failed .domainError .sliceRange))

/-- 43_select.md R92, R93: CONCAT puts `v[a]` at the low indices and `v[b]` above it; it never fails. -/
def Obligations.ConcatPutsFirstLow : Prop :=
  ∀ (s : State) (d a b : VReg),
    (encode (.concat d a b)).toNat = 13 + 32 * d + 256 * a + 2048 * b ∧
    ∃ r, exec (.concat d a b) s = .next (s.wroteV d r) ∧ r.length = (s.readV a).length + (s.readV b).length ∧
      (∀ i < (s.readV a).length, r[i]? = (s.readV a)[i]?) ∧
      (∀ i < (s.readV b).length, r[(s.readV a).length + i]? = (s.readV b)[i]?) ∧
      val r = val (s.readV a) + val (s.readV b) * 2 ^ (s.readV a).length

/-- 43_select.md R94, R95: TRIMEND keeps the bits up to the highest one that differs from f, and none if all equal f; it never
fails, a second trim changes nothing, and trimming zeros keeps the value and is minimal when the value is not 0. -/
def Obligations.TrimendStopsAtHighestDifferingBit : Prop :=
  ∀ (s : State) (d a : VReg) (f : Bool),
    (encode (.trimend d a f)).toNat = 14 + 32 * d + 256 * a + 131072 * f.toNat ∧
    ∃ r, exec (.trimend d a f) s = .next (s.wroteV d r) ∧
      (∀ j : Nat, (s.readV a)[j]? = some (!f) → (∀ i : Nat, j < i → (s.readV a)[i]? ≠ some (!f)) →
        r = (s.readV a).take (j + 1) ∧ r.getLast? = some (!f)) ∧
      ((∀ b ∈ s.readV a, b = f) → r = []) ∧
      (∀ e, exec (.trimend e d f) (s.wroteV d r) = .next ((s.wroteV d r).wroteV e r)) ∧
      (f = false → val r = val (s.readV a) ∧ (val (s.readV a) ≠ 0 → minimal r = true) ∧ (val (s.readV a) = 0 → r = []))

/-- 43_select.md R96, R97: REVERSE moves bit `i` to index `n - 1 - i`; it never fails, and reversing twice restores the
vector. -/
def Obligations.ReverseMirrorsIndices : Prop :=
  ∀ (s : State) (d a : VReg),
    (encode (.reverse d a)).toNat = 15 + 32 * d + 256 * a ∧
    ∃ r, exec (.reverse d a) s = .next (s.wroteV d r) ∧ r.length = (s.readV a).length ∧
      (∀ i < (s.readV a).length, r[(s.readV a).length - 1 - i]? = (s.readV a)[i]?) ∧
      ∀ e, exec (.reverse e d) (s.wroteV d r) = .next ((s.wroteV d r).wroteV e (s.readV a))

/-- 43_select.md R98, R99: INVR inverts exactly the bits of [s[b], s[b] + s[c]); a range not within the vector raises
INVR_RANGE; applied twice it restores the vector, and inverting one bit is FLIP of it. -/
def Obligations.InvrInvertsHalfOpenRange : Prop :=
  ∀ (s : State) (d a : VReg) (b c : SReg),
    (encode (.invr d a b c)).toNat = 19 + 32 * d + 256 * a + 2048 * b + 16384 * c ∧
    (∀ start count : Nat, s.readS b = start → s.readS c = count → start + count ≤ (s.readV a).length →
      ∃ r, exec (.invr d a b c) s = .next (s.wroteV d r) ∧ r.length = (s.readV a).length ∧
        (∀ i, r[i]? = if start ≤ i ∧ i < start + count then ((s.readV a)[i]?).map not else (s.readV a)[i]?) ∧
        (∀ e, exec (.invr e d b c) (s.wroteV d r) = .next ((s.wroteV d r).wroteV e (s.readV a))) ∧
        (count = 1 → exec (.flip d a b) s = .next (s.wroteV d r))) ∧
    (s.readS b < 0 ∨ s.readS c < 0 ∨ ((s.readV a).length : Int) < s.readS b + s.readS c →
      exec (.invr d a b c) s = .next (s.failed .domainError .invrRange))

/-! ### Bit query -/

/-- 44_bitquery.md R105, R106: HWEIGHT writes the number of indices whose bit is 1, at most the length; it never fails. -/
def Obligations.HweightCountsSetIndices : Prop :=
  ∀ (s : State) (d : SReg) (a : VReg),
    (encode (.hweight d a)).toNat = 16 + 32 * d + 256 * a ∧
    ∃ n : Nat, exec (.hweight d a) s = .next (s.wroteS d n) ∧ n ≤ (s.readV a).length ∧
      n = ((Finset.range (s.readV a).length).filter fun i => (s.readV a)[i]? = some true).card

/-- 44_bitquery.md R107, R108: FLIP inverts bit `s[b]` alone and keeps the length; an index outside 0 .. n-1 raises
FLIP_RANGE; flipping twice restores the vector. -/
def Obligations.FlipTogglesOneBit : Prop :=
  ∀ (s : State) (d a : VReg) (b : SReg),
    (encode (.flip d a b)).toNat = 17 + 32 * d + 256 * a + 2048 * b ∧
    (∀ i : Nat, s.readS b = i → i < (s.readV a).length → ∃ r, exec (.flip d a b) s = .next (s.wroteV d r) ∧
      r.length = (s.readV a).length ∧ r[i]? = ((s.readV a)[i]?).map not ∧
      (∀ j, j ≠ i → r[j]? = (s.readV a)[j]?) ∧
      ∀ e, exec (.flip e d b) (s.wroteV d r) = .next ((s.wroteV d r).wroteV e (s.readV a))) ∧
    (s.readS b < 0 ∨ ((s.readV a).length : Int) ≤ s.readS b →
      exec (.flip d a b) s = .next (s.failed .domainError .flipRange))

/-- 44_bitquery.md R109, R110: EQUALS writes 1 exactly if the vectors have the same length and the same bit at every index, else
0 (no numeric normalization); it never fails. -/
def Obligations.EqualsComparesLengthAndBits : Prop :=
  ∀ (s : State) (d : SReg) (a b : VReg),
    (encode (.equals d a b)).toNat = 18 + 32 * d + 256 * a + 2048 * b ∧
    ((s.readV a).length = (s.readV b).length ∧ (∀ i < (s.readV a).length, (s.readV a)[i]? = (s.readV b)[i]?) →
      exec (.equals d a b) s = .next (s.wroteS d 1)) ∧
    (¬ ((s.readV a).length = (s.readV b).length ∧ ∀ i < (s.readV a).length, (s.readV a)[i]? = (s.readV b)[i]?) →
      exec (.equals d a b) s = .next (s.wroteS d 0))

/-- 44_bitquery.md R111, R112: LEN writes the number of bits held, high zeros counted; it never fails. -/
def Obligations.LenWritesLength : Prop :=
  ∀ (s : State) (d : SReg) (a : VReg),
    (encode (.len d a)).toNat = 20 + 32 * d + 256 * a ∧
    exec (.len d a) s = .next (s.wroteS d (s.readV a).length)

/-! ### Codec -/

/-- 45_codec.md R121, R122: ENCODE of `v >= 0` writes the vector of length `blen(v + 2) - 1` whose bit 0 is bit 0 of `v + 2` and
whose other bits are the inverted bits of `v + 2`; a negative `s[a]` raises NEG_INTEGER, the only failure. -/
def Obligations.EncodeInvertsInteriorDropsTop : Prop :=
  ∀ (s : State) (d : VReg) (a : SReg),
    (encode (.encode d a)).toNat = 21 + 32 * d + 256 * a ∧
    (∀ v : Nat, s.readS a = v → ∃ r, exec (.encode d a) s = .next (s.wroteV d r) ∧
      r.length = blen (v + 2) - 1 ∧ 1 ≤ r.length ∧ (v + 2).testBit r.length = true ∧
      r[0]? = some ((v + 2).testBit 0) ∧ (∀ i, 1 ≤ i → i < r.length → r[i]? = some (!(v + 2).testBit i))) ∧
    (s.readS a < 0 → exec (.encode d a) s = .next (s.failed .domainError .negInteger))

/-- 45_codec.md R123: codewords of length n are those of the values 2^n - 2 .. 2^(n+1) - 3; lengths do not decrease; the
codeword's value is (v + 2 - 2^n) XOR (2^n - 2); encode is one-to-one onto the non-empty vectors. -/
def Obligations.EncodeIsBijectionOntoNonEmpty : Prop :=
  (∀ (v : Nat) (r : Bits), compactEncode v = .ok r →
    r.length = blen (v + 2) - 1 ∧ 1 ≤ r.length ∧ 2 ^ r.length - 2 ≤ v ∧ v ≤ 2 ^ (r.length + 1) - 3 ∧
    val r = (v + 2 - 2 ^ r.length) ^^^ (2 ^ r.length - 2)) ∧
  (∀ (v w : Nat) (r x : Bits), v ≤ w → compactEncode v = .ok r → compactEncode w = .ok x → r.length ≤ x.length) ∧
  (∀ c : Bits, c ≠ [] → ∃ v : Nat, compactEncode v = .ok c ∧ ∀ w : Nat, compactEncode w = .ok c → w = v)

/-- 45_codec.md R124, R125: DECODE of a non-empty codeword of length n restores bit 0, the inverted other bits and a top bit 1, and
writes that vector's value minus 2, which is 2^n + (val XOR (2^n - 2)) - 2; of the zero-length vector it writes 0. It never
fails. -/
def Obligations.DecodeRestoresAndRemovesBias : Prop :=
  ∀ (s : State) (d : SReg) (a : VReg),
    (encode (.decode d a)).toNat = 22 + 32 * d + 256 * a ∧
    (s.readV a = [] → exec (.decode d a) s = .next (s.wroteS d 0)) ∧
    (s.readV a ≠ [] → ∃ (x : Bits) (m : Nat), exec (.decode d a) s = .next (s.wroteS d m) ∧
      x.length = (s.readV a).length + 1 ∧ x[0]? = (s.readV a)[0]? ∧
      (∀ i, 1 ≤ i → i < (s.readV a).length → x[i]? = ((s.readV a)[i]?).map not) ∧
      x[(s.readV a).length]? = some true ∧ m + 2 = val x ∧
      m + 2 = 2 ^ (s.readV a).length + (val (s.readV a) ^^^ (2 ^ (s.readV a).length - 2)))

/-- 45_codec.md R126 on the machine: ENCODE then DECODE gives every non-negative scalar back; DECODE then ENCODE gives every
non-empty vector back. -/
def Obligations.CodecRoundTrips : Prop :=
  (∀ (s : State) (d : VReg) (a e : SReg), 0 ≤ s.readS a →
    ∃ t u, exec (.encode d a) s = .next t ∧ exec (.decode e d) t = .next u ∧ u.readS e = s.readS a) ∧
  (∀ (s : State) (a e : VReg) (d : SReg), s.readV a ≠ [] →
    ∃ t u, exec (.decode d a) s = .next t ∧ exec (.encode e d) t = .next u ∧ u.readV e = s.readV a)

/-- 45_codec.md R127: DECODE checks nothing: it answers ok with a non-negative integer for every vector; different non-empty
vectors decode to different integers, so a codeword that gained high-index bits (or, read backwards, lost them) decodes,
without error, to a different integer. -/
def Obligations.WrongLengthDecodesToOtherInteger : Prop :=
  (∀ (s : State) (d : SReg) (a : VReg), ∃ n : Nat, exec (.decode d a) s = .next (s.wroteS d n)) ∧
  (∀ c x : Bits, c ≠ [] → x ≠ [] → compactDecode c = compactDecode x → c = x) ∧
  (∀ c x : Bits, c ≠ [] → x ≠ [] → compactDecode (c ++ x) ≠ compactDecode c)

/-- 45_codec.md R121, "in terms of the other operations" (program P1 of 95_test_vectors.md): encode is add the bias 2 to the
minimal vector, invert the interior, drop the top bit. -/
def Obligations.EncodeRefinesPrimitives : Prop :=
  ∀ v : Int, compactEncode v =
    match fromInteger v true with
    | .error c => .error c
    | .ok m =>
      match invertRange (addConstant m 2) 1 ((addConstant m 2).length - 2) with
      | .error c => .error c
      | .ok y => shrink y 1

/-- 45_codec.md R124, "in terms of the other operations" (program P2 of 95_test_vectors.md): decode of a non-empty vector is
invert all but bit 0, append the bit 1, subtract 2, take the integer, and no step of it fails. -/
def Obligations.DecodeRefinesPrimitives : Prop :=
  ∀ (c : Bits) (z : DecZero), c ≠ [] →
    ∃ y x, invertRange c 1 (c.length - 1) = .ok y ∧ subtractConstant z (Machine.append y true) 2 = .ok x ∧
      compactDecode c = toInteger x

/-! ### Laws -/

/-- 40_convert.md R68: toInteger undoes fromInteger; fromInteger(toInteger b, true) is minimal with b's value, equals b exactly
if b is minimal, and differs from trimEnd(b, false) exactly if the value is 0 (then "0" against ""); fromInteger(v, false) is
fromBytes of the shortest non-empty byte sequence of v. -/
def Obligations.ConversionLaws : Prop :=
  (∀ (v : Nat) (f : Bool), ∃ r, fromInteger v f = .ok r ∧ toInteger r = v) ∧
  (∀ b : Bits, ∃ r, fromInteger (toInteger b) true = .ok r ∧ minimal r = true ∧ val r = val b ∧
    (r = b ↔ minimal b = true) ∧ (r = trimEnd b false ↔ val b ≠ 0) ∧ (val b = 0 → r = [false] ∧ trimEnd b false = [])) ∧
  (∀ v : Nat, ∃ ys : List Byte, ys ≠ [] ∧ Nat.ofDigits 256 (ys.map BitVec.toNat) = v ∧
    (∀ zs : List Byte, zs ≠ [] → Nat.ofDigits 256 (zs.map BitVec.toNat) = v → ys.length ≤ zs.length) ∧
    fromInteger v false = .ok (fromBytes ys))

/-- 41_incdec.md R79 on the machine: INC then DEC gives back the value (one bit longer exactly when INC grew the vector); DEC then
INC gives back value and length when the value is at least 1. -/
def Obligations.IncDecInverse : Prop :=
  (∀ (s : State) (d a e : VReg), ∃ t u, exec (.inc d a) s = .next t ∧ exec (.dec e d) t = .next u ∧
    val (u.readV e) = val (s.readV a) ∧ (u.readV e).length = (t.readV d).length ∧
    ((u.readV e).length = (s.readV a).length + 1 ↔ ∀ b ∈ s.readV a, b = true)) ∧
  (∀ (s : State) (d a e : VReg), 1 ≤ val (s.readV a) →
    ∃ t u, exec (.dec d a) s = .next t ∧ exec (.inc e d) t = .next u ∧
      val (u.readV e) = val (s.readV a) ∧ (u.readV e).length = (s.readV a).length)

/-- 42_length.md R86 on the machine: GROW then SHRINK by the same count gives the vector back bit for bit; the opposite order does
exactly if the dropped bits were zero. -/
def Obligations.GrowShrinkInverse : Prop :=
  (∀ (s : State) (d a e : VReg) (b : SReg), 0 ≤ s.readS b →
    ∃ t u, exec (.grow d a b) s = .next t ∧ exec (.shrink e d b) t = .next u ∧ u.readV e = s.readV a) ∧
  (∀ (s : State) (d a e : VReg) (b : SReg) (k : Nat), s.readS b = k → k ≤ (s.readV a).length →
    ∃ t u, exec (.shrink d a b) s = .next t ∧ exec (.grow e d b) t = .next u ∧
      (u.readV e = s.readV a ↔ ∀ i, (s.readV a).length - k ≤ i → i < (s.readV a).length → (s.readV a)[i]? = some false))

/-- 43_select.md R100: slicing a concatenation gives its two parts back; concatenating the two slices at any cut of a vector gives
the vector back. -/
def Obligations.ConcatSliceInverse : Prop :=
  (∀ a b : Bits, slice (Machine.concat a b) 0 a.length = .ok a ∧
    slice (Machine.concat a b) a.length b.length = .ok b) ∧
  (∀ (x : Bits) (m : Nat), m ≤ x.length →
    ∃ lo hi, slice x 0 m = .ok lo ∧ slice x m ((x.length : Int) - m) = .ok hi ∧ Machine.concat lo hi = x)

/-- 46_system.md R135: CLRERR clears KIND and CAUSE, answers ok, and reads and writes nothing else; its word is 0x00000017, and a word
of the same opcode with any other bit set is no legal command. -/
def Obligations.ClrerrClearsLatch : Prop :=
  encode .clrerr = 0x00000017 ∧
  (∀ w : Word, w.toNat % 32 = 23 → w ≠ 0x00000017 → ∃ e, decode w = .error e) ∧
  ∀ s : State, exec .clrerr s =
    .next { s with status := { kind := .none, cause := .none }, responses := s.responses ++ [.ok] }
end

