-- ==== Sys2Proof/Laws/Bits.lean ====
section
/-! SUPPORT. The small lemmas of the bit-vector notation. -/

namespace Sys2Proof.Machine

@[simp] theorem val_nil : val [] = 0 := rfl

@[simp] theorem val_cons (b : Bool) (bs : Bits) : val (b :: bs) = b.toNat + 2 * val bs := rfl

/-- The value of a concatenation: the second part has the weight of the first part's length. -/
theorem val_append (x y : Bits) : val (x ++ y) = val x + val y * 2 ^ x.length := by
  induction x with
  | nil => simp
  | cons b bs ih => simp only [List.cons_append, val_cons, ih, List.length_cons, pow_succ]; ring

/-- A vector of length `n` has a value below `2^n`. -/
theorem val_lt (x : Bits) : val x < 2 ^ x.length := by
  induction x with
  | nil => simp
  | cons b bs ih =>
    have hb : b.toNat ≤ 1 := by cases b <;> decide
    simp only [val_cons, List.length_cons, pow_succ]; omega

@[simp] theorem val_zeros (k : Nat) : val (zeros k) = 0 := by
  induction k with
  | zero => rfl
  | succ k ih => simp only [zeros, List.replicate_succ, val_cons] at ih ⊢; simp [ih]

@[simp] theorem length_bitsOf (v n : Nat) : (bitsOf v n).length = n := by simp [bitsOf]

/-- A vector is determined by its length and its value. -/
theorem eq_of_length_val (x y : Bits) (hl : x.length = y.length) (hv : val x = val y) : x = y := by
  induction x generalizing y with
  | nil => cases y with
    | nil => rfl
    | cons => simp at hl
  | cons b bs ih => cases y with
    | nil => simp at hl
    | cons c cs =>
      simp only [List.length_cons, Nat.add_right_cancel_iff] at hl
      simp only [val_cons] at hv
      have hb : b.toNat ≤ 1 := by cases b <;> decide
      have hc : c.toNat ≤ 1 := by cases c <;> decide
      rw [ih cs hl (by omega)]
      have : b.toNat = c.toNat := by omega
      cases b <;> cases c <;> simp_all

end Sys2Proof.Machine
end

