-- ==== Sys2Proof/Laws/Encoding.lean ====
section
/-! SUPPORT. The fields of a word and the word of its fields determine each other. -/

namespace Sys2Proof

/-- Fields survive being put into a word and cut out again (30_encoding.md R40). -/
theorem fieldsOf_wordNumber (x : Fields) : fieldsOf (BitVec.ofNat 32 (wordNumber x)) = x := by
  obtain ⟨⟨op, hop⟩, ⟨d, hd⟩, ⟨a, ha⟩, ⟨b, hb⟩, ⟨c, hc⟩, f, ⟨z, hz⟩⟩ := x
  have hf : f.toNat ≤ 1 := by cases f <;> decide
  have hlt : wordNumber ⟨⟨op, hop⟩, ⟨d, hd⟩, ⟨a, ha⟩, ⟨b, hb⟩, ⟨c, hc⟩, f, ⟨z, hz⟩⟩ < 2 ^ 32 := by
    simp only [wordNumber]; omega
  simp only [fieldsOf, BitVec.toNat_ofNat, Nat.mod_eq_of_lt hlt, Fields.mk.injEq, Fin.ext_iff, Fin.val_ofNat]
  simp only [wordNumber]
  have hfb : ((op + 32 * d + 256 * a + 2048 * b + 16384 * c + 131072 * f.toNat + 262144 * z) / 131072 % 2 == 1) = f := by
    have : (op + 32 * d + 256 * a + 2048 * b + 16384 * c + 131072 * f.toNat + 262144 * z) / 131072 % 2 = f.toNat := by
      omega
    rw [this]; cases f <;> rfl
  refine ⟨?_, ?_, ?_, ?_, ?_, hfb, ?_⟩ <;> omega

/-- A word is the word of its fields (30_encoding.md R40). -/
theorem wordNumber_fieldsOf (w : Word) : BitVec.ofNat 32 (wordNumber (fieldsOf w)) = w := by
  apply BitVec.eq_of_toNat_eq
  have hw := w.isLt
  have hf : (w.toNat / 131072 % 2 == 1).toNat = w.toNat / 131072 % 2 := by
    rcases Nat.mod_two_eq_zero_or_one (w.toNat / 131072) with h | h <;> simp [h]
  simp only [wordNumber, fieldsOf, BitVec.toNat_ofNat, Fin.val_ofNat, hf]
  omega

/-- The fields of a command's word are the command's fields. -/
theorem fieldsOf_encode (i : Instr) : fieldsOf (encode i) = encodeFields i := fieldsOf_wordNumber _

/-- Legality of a command's word is legality of its fields. -/
theorem legal_encode (i : Instr)
    (h : (match opcodeRow (encodeFields i).op with
      | none => false
      | some (fmt, _) => (encodeFields i).wellFormed fmt) = true) : legal (encode i) = true := by
  unfold legal; rw [fieldsOf_encode]; exact h

end Sys2Proof
end

