-- ==== Sys2Proof/Laws/Memory.lean ====
section
/-! SUPPORT. The byte buffer: the one operation that writes it gives the canonical form, and reading gives what was written. -/

namespace Sys2Proof.Machine

/-- A buffer written whole has the canonical form. -/
theorem Memory.wf_ofBytes (ys : List Byte) : (Memory.ofBytes ys).wf = true := by
  simp [Memory.wf, Memory.ofBytes, List.map_fst_zip]

/-- A buffer written whole holds the bytes written. -/
@[simp] theorem Memory.bytes_ofBytes (ys : List Byte) : (Memory.ofBytes ys).bytes = ys := by
  simp [Memory.bytes, Memory.ofBytes, List.map_snd_zip]

/-- A buffer in canonical form is determined by its bytes. -/
theorem Memory.ofBytes_bytes (m : Memory) (h : m.wf = true) : Memory.ofBytes m.bytes = m := by
  have h' : m.map Prod.fst = List.range m.length := by simpa [Memory.wf] using h
  have hl : m.bytes.length = m.length := by simp [Memory.bytes]
  rw [Memory.ofBytes, hl, ← h']
  exact (List.zip_of_prod rfl rfl).symm

/-- Every operation that writes the buffer keeps the canonical form: a write of the whole buffer ... -/
theorem State.writeB_wf (s : State) (ys : List Byte) : (s.writeB ys).buf.wf = true := Memory.wf_ofBytes ys

/-- ... and a reset. -/
theorem State.reset_buf_wf : State.reset.buf.wf = true := by decide

end Sys2Proof.Machine
end

