-- ==== Sys2Proof/Laws/State.lean ====
section
/-! SUPPORT. One lemma per field per state operation, true by unfolding the operation once, and what a register reads as after
a write. -/

namespace Sys2Proof.Machine

@[simp] theorem State.writeV_vregs (s : State) (i : VReg) (x : Bits) : (s.writeV i x).vregs = s.vregs.set i x := rfl
@[simp] theorem State.writeV_sregs (s : State) (i : VReg) (x : Bits) : (s.writeV i x).sregs = s.sregs := rfl
@[simp] theorem State.writeV_buf (s : State) (i : VReg) (x : Bits) : (s.writeV i x).buf = s.buf := rfl
@[simp] theorem State.writeV_status (s : State) (i : VReg) (x : Bits) : (s.writeV i x).status = s.status := rfl
@[simp] theorem State.writeV_inputs (s : State) (i : VReg) (x : Bits) : (s.writeV i x).inputs = s.inputs := rfl
@[simp] theorem State.writeV_responses (s : State) (i : VReg) (x : Bits) : (s.writeV i x).responses = s.responses := rfl
@[simp] theorem State.writeV_readouts (s : State) (i : VReg) (x : Bits) : (s.writeV i x).readouts = s.readouts := rfl

@[simp] theorem State.writeS_vregs (s : State) (i : SReg) (n : Int) : (s.writeS i n).vregs = s.vregs := rfl
@[simp] theorem State.writeS_sregs (s : State) (i : SReg) (n : Int) : (s.writeS i n).sregs = s.sregs.set i n := rfl
@[simp] theorem State.writeS_buf (s : State) (i : SReg) (n : Int) : (s.writeS i n).buf = s.buf := rfl
@[simp] theorem State.writeS_status (s : State) (i : SReg) (n : Int) : (s.writeS i n).status = s.status := rfl
@[simp] theorem State.writeS_inputs (s : State) (i : SReg) (n : Int) : (s.writeS i n).inputs = s.inputs := rfl
@[simp] theorem State.writeS_responses (s : State) (i : SReg) (n : Int) : (s.writeS i n).responses = s.responses := rfl
@[simp] theorem State.writeS_readouts (s : State) (i : SReg) (n : Int) : (s.writeS i n).readouts = s.readouts := rfl

@[simp] theorem State.writeB_vregs (s : State) (ys : List Byte) : (s.writeB ys).vregs = s.vregs := rfl
@[simp] theorem State.writeB_sregs (s : State) (ys : List Byte) : (s.writeB ys).sregs = s.sregs := rfl
@[simp] theorem State.writeB_buf (s : State) (ys : List Byte) : (s.writeB ys).buf = .ofBytes ys := rfl
@[simp] theorem State.writeB_status (s : State) (ys : List Byte) : (s.writeB ys).status = s.status := rfl
@[simp] theorem State.writeB_inputs (s : State) (ys : List Byte) : (s.writeB ys).inputs = s.inputs := rfl
@[simp] theorem State.writeB_responses (s : State) (ys : List Byte) : (s.writeB ys).responses = s.responses := rfl
@[simp] theorem State.writeB_readouts (s : State) (ys : List Byte) : (s.writeB ys).readouts = s.readouts := rfl

@[simp] theorem State.respond_vregs (s : State) (r : Response) : (s.respond r).vregs = s.vregs := rfl
@[simp] theorem State.respond_sregs (s : State) (r : Response) : (s.respond r).sregs = s.sregs := rfl
@[simp] theorem State.respond_buf (s : State) (r : Response) : (s.respond r).buf = s.buf := rfl
@[simp] theorem State.respond_status (s : State) (r : Response) : (s.respond r).status = s.status := rfl
@[simp] theorem State.respond_inputs (s : State) (r : Response) : (s.respond r).inputs = s.inputs := rfl
@[simp] theorem State.respond_responses (s : State) (r : Response) : (s.respond r).responses = s.responses ++ [r] := rfl
@[simp] theorem State.respond_readouts (s : State) (r : Response) : (s.respond r).readouts = s.readouts := rfl

@[simp] theorem State.hand_vregs (s : State) (r : Readout) : (s.hand r).vregs = s.vregs := rfl
@[simp] theorem State.hand_sregs (s : State) (r : Readout) : (s.hand r).sregs = s.sregs := rfl
@[simp] theorem State.hand_buf (s : State) (r : Readout) : (s.hand r).buf = s.buf := rfl
@[simp] theorem State.hand_status (s : State) (r : Readout) : (s.hand r).status = s.status := rfl
@[simp] theorem State.hand_inputs (s : State) (r : Readout) : (s.hand r).inputs = s.inputs := rfl
@[simp] theorem State.hand_responses (s : State) (r : Readout) : (s.hand r).responses = s.responses := rfl
@[simp] theorem State.hand_readouts (s : State) (r : Readout) : (s.hand r).readouts = s.readouts ++ [r] := rfl

@[simp] theorem State.raise_vregs (s : State) (k : Kind) (c : Cause) : (s.raise k c).vregs = s.vregs := rfl
@[simp] theorem State.raise_sregs (s : State) (k : Kind) (c : Cause) : (s.raise k c).sregs = s.sregs := rfl
@[simp] theorem State.raise_buf (s : State) (k : Kind) (c : Cause) : (s.raise k c).buf = s.buf := rfl
@[simp] theorem State.raise_status (s : State) (k : Kind) (c : Cause) : (s.raise k c).status = s.status.latch k c := rfl
@[simp] theorem State.raise_inputs (s : State) (k : Kind) (c : Cause) : (s.raise k c).inputs = s.inputs := rfl
@[simp] theorem State.raise_responses (s : State) (k : Kind) (c : Cause) : (s.raise k c).responses = s.responses ++ [.error k c] := rfl
@[simp] theorem State.raise_readouts (s : State) (k : Kind) (c : Cause) : (s.raise k c).readouts = s.readouts := rfl

@[simp] theorem State.clearStatus_vregs (s : State) : (s.clearStatus).vregs = s.vregs := rfl
@[simp] theorem State.clearStatus_sregs (s : State) : (s.clearStatus).sregs = s.sregs := rfl
@[simp] theorem State.clearStatus_buf (s : State) : (s.clearStatus).buf = s.buf := rfl
@[simp] theorem State.clearStatus_status (s : State) : (s.clearStatus).status = .clear := rfl
@[simp] theorem State.clearStatus_inputs (s : State) : (s.clearStatus).inputs = s.inputs := rfl
@[simp] theorem State.clearStatus_responses (s : State) : (s.clearStatus).responses = s.responses := rfl
@[simp] theorem State.clearStatus_readouts (s : State) : (s.clearStatus).readouts = s.readouts := rfl

@[simp] theorem State.resetEngine_vregs (s : State) : (s.resetEngine).vregs = State.reset.vregs := rfl
@[simp] theorem State.resetEngine_sregs (s : State) : (s.resetEngine).sregs = State.reset.sregs := rfl
@[simp] theorem State.resetEngine_buf (s : State) : (s.resetEngine).buf = State.reset.buf := rfl
@[simp] theorem State.resetEngine_status (s : State) : (s.resetEngine).status = State.reset.status := rfl
@[simp] theorem State.resetEngine_inputs (s : State) : (s.resetEngine).inputs = s.inputs := rfl
@[simp] theorem State.resetEngine_responses (s : State) : (s.resetEngine).responses = s.responses := rfl
@[simp] theorem State.resetEngine_readouts (s : State) : (s.resetEngine).readouts = s.readouts := rfl

@[simp] theorem State.issue_vregs (s : State) (w : Word) : (s.issue w).vregs = s.vregs := rfl
@[simp] theorem State.issue_sregs (s : State) (w : Word) : (s.issue w).sregs = s.sregs := rfl
@[simp] theorem State.issue_buf (s : State) (w : Word) : (s.issue w).buf = s.buf := rfl
@[simp] theorem State.issue_status (s : State) (w : Word) : (s.issue w).status = s.status := rfl
@[simp] theorem State.issue_inputs (s : State) (w : Word) : (s.issue w).inputs = .command w :: s.inputs := rfl
@[simp] theorem State.issue_responses (s : State) (w : Word) : (s.issue w).responses = s.responses := rfl
@[simp] theorem State.issue_readouts (s : State) (w : Word) : (s.issue w).readouts = s.readouts := rfl

@[simp] theorem State.readV_writeV (s : State) (i j : VReg) (x : Bits) :
    (s.writeV i x).readV j = if j = i then x else s.readV j := by
  simp only [State.readV, State.writeV_vregs, Fin.getElem_fin, Vector.getElem_set, Fin.ext_iff, eq_comm]

@[simp] theorem State.readS_writeS (s : State) (i j : SReg) (n : Int) :
    (s.writeS i n).readS j = if j = i then n else s.readS j := by
  simp only [State.readS, State.writeS_sregs, Fin.getElem_fin, Vector.getElem_set, Fin.ext_iff, eq_comm]

@[simp] theorem State.readV_writeS (s : State) (i : SReg) (j : VReg) (n : Int) : (s.writeS i n).readV j = s.readV j := rfl
@[simp] theorem State.readS_writeV (s : State) (i : VReg) (j : SReg) (x : Bits) : (s.writeV i x).readS j = s.readS j := rfl
@[simp] theorem State.readV_writeB (s : State) (j : VReg) (ys : List Byte) : (s.writeB ys).readV j = s.readV j := rfl
@[simp] theorem State.readS_writeB (s : State) (j : SReg) (ys : List Byte) : (s.writeB ys).readS j = s.readS j := rfl
@[simp] theorem State.readV_respond (s : State) (j : VReg) (r : Response) : (s.respond r).readV j = s.readV j := rfl
@[simp] theorem State.readS_respond (s : State) (j : SReg) (r : Response) : (s.respond r).readS j = s.readS j := rfl
@[simp] theorem State.readV_raise (s : State) (j : VReg) (k : Kind) (c : Cause) : (s.raise k c).readV j = s.readV j := rfl
@[simp] theorem State.readS_raise (s : State) (j : SReg) (k : Kind) (c : Cause) : (s.raise k c).readS j = s.readS j := rfl

end Sys2Proof.Machine
end

