-- ==== Sys2Proof/Laws/Ops.lean ====
section
/-! SUPPORT. One lemma per shared operation, saying everything it can do; callers cite these instead of unfolding. -/

namespace Sys2Proof.Machine

@[simp] theorem fitsV_unbounded (z : DecZero) (x : Bits) : fitsV (.unbounded z) x = true := rfl
@[simp] theorem fitsS_unbounded (z : DecZero) (n : Int) : fitsS (.unbounded z) n = true := rfl
@[simp] theorem fitsB_unbounded (z : DecZero) (ys : List Byte) : fitsB (.unbounded z) ys = true := rfl
@[simp] theorem fitsV_default (x : Bits) : fitsV Config.params x = true := rfl
@[simp] theorem fitsS_default (n : Int) : fitsS Config.params n = true := rfl
@[simp] theorem fitsB_default (ys : List Byte) : fitsB Config.params ys = true := rfl

/-- At the default parameters the end of a command with destination `v[d]` is an error raised or `v[d]` written. -/
theorem retireV_default (d : VReg) (r : Except Cause Bits) (s : State) :
    retireV Config.params d r s =
      match r with
      | .error c => .next (s.raise .domainError c)
      | .ok x => .next ((s.writeV d x).respond .ok) := by
  cases r <;> rfl

/-- At the default parameters the end of a command with destination `s[d]` is `s[d]` written. -/
theorem retireS_default (d : SReg) (n : Int) (s : State) :
    retireS Config.params d n s = .next ((s.writeS d n).respond .ok) := rfl

/-- At the default parameters the end of a command with destination `B` is `B` written. -/
theorem retireB_default (ys : List Byte) (s : State) :
    retireB Config.params ys s = .next ((s.writeB ys).respond .ok) := rfl

/-- Everything the end of a command with destination `v[d]` can do. -/
theorem retireV_cases (p : Params) (d : VReg) (r : Except Cause Bits) (s : State) :
    (∃ c, r = .error c ∧ retireV p d r s = .next (s.raise .domainError c)) ∨
    (∃ x, r = .ok x ∧ fitsV p x = true ∧ retireV p d r s = .next ((s.writeV d x).respond .ok)) ∨
    (∃ x, r = .ok x ∧ fitsV p x = false ∧ retireV p d r s = .refused .vectorCapacity) := by
  cases r with
  | error c => exact .inl ⟨c, rfl, rfl⟩
  | ok x =>
    cases h : fitsV p x with
    | true => exact .inr (.inl ⟨x, rfl, h, by simp [retireV, h]⟩)
    | false => exact .inr (.inr ⟨x, rfl, h, by simp [retireV, h]⟩)

/-- Everything the end of a command with destination `s[d]` can do. -/
theorem retireS_cases (p : Params) (d : SReg) (n : Int) (s : State) :
    (fitsS p n = true ∧ retireS p d n s = .next ((s.writeS d n).respond .ok)) ∨
    (fitsS p n = false ∧ retireS p d n s = .refused .scalarCapacity) := by
  cases h : fitsS p n with
  | true => exact .inl ⟨rfl, by simp [retireS, h]⟩
  | false => exact .inr ⟨rfl, by simp [retireS, h]⟩

/-- Everything the end of a command with destination `B` can do. -/
theorem retireB_cases (p : Params) (ys : List Byte) (s : State) :
    (fitsB p ys = true ∧ retireB p ys s = .next ((s.writeB ys).respond .ok)) ∨
    (fitsB p ys = false ∧ retireB p ys s = .refused .bufferCapacity) := by
  cases h : fitsB p ys with
  | true => exact .inl ⟨rfl, by simp [retireB, h]⟩
  | false => exact .inr ⟨rfl, by simp [retireB, h]⟩

/-- A count operand fails exactly on a negative scalar. -/
theorem countOperand_cases (n : Int) :
    (n < 0 ∧ countOperand n = .error .negCount) ∨ (0 ≤ n ∧ countOperand n = .ok n.toNat) := by
  by_cases h : n < 0
  · exact .inl ⟨h, by simp [countOperand, h]⟩
  · exact .inr ⟨by omega, by simp [countOperand, h]⟩

/-- A word on the command port: the decoded command is executed, or IllegalCommand is raised. -/
theorem command_cases (ex : Instr → State → Out) (w : Word) (s : State) :
    (∃ i, decode w = .ok i ∧ command ex w s = ex i s) ∨
    (∃ e, decode w = .error e ∧ command ex w s = .next (s.raise .illegalCommand .none)) := by
  cases h : decode w with
  | ok i => exact .inl ⟨i, rfl, by simp [command, h]⟩
  | error e => exact .inr ⟨e, rfl, by simp [command, h]⟩

end Sys2Proof.Machine
end

