-- ==== Sys2Proof/Laws/Step.lean ====
section
/-! SUPPORT. The fixed machine is the parametric one at the default parameters, and everything a step can do. -/

namespace Sys2Proof.Machine

/-- `exec` is `execWith` at the default parameters. -/
theorem execWith_default (i : Instr) (s : State) : execWith Config.params i s = exec i s := by
  cases i <;> rfl

/-- `step` is `stepWith` at the default parameters. -/
theorem stepWith_default (s : State) : stepWith Config.params s = step s := by
  have h : execWith Config.params = exec := funext fun i => funext fun s => execWith_default i s
  rw [stepWith, h, step]

/-- Everything a step can do: the engine idles, or the host's next move is performed. -/
theorem engineStep_cases (p : Params) (ex : Instr → State → Out) (s : State) :
    (s.inputs = [] ∧ engineStep p ex s = .next s) ∨
    (∃ m rest, s.inputs = m :: rest ∧ engineStep p ex s = perform p ex m { s with inputs := rest }) := by
  cases h : s.inputs with
  | nil => exact .inl ⟨rfl, by simp [engineStep, h]⟩
  | cons m rest => exact .inr ⟨m, rest, rfl, by simp [engineStep, h]⟩

end Sys2Proof.Machine
end

