-- ==== Sys2Proof/Laws/Exec.lean ====
section
/-! SUPPORT. What a source function can fail with, and the one inversion lemma of execution: every command ends as one of the
four ends of Ops.lean, with the destination its format gives it. -/

namespace Sys2Proof.Machine

/-! ### The only cause each source function fails with -/

theorem fromInteger_error {v : Int} {f : Bool} {c : Cause} (h : fromInteger v f = .error c) : c = .negInteger ∧ v < 0 := by
  simp only [fromInteger] at h; split at h <;> cases h; exact ⟨rfl, ‹_›⟩

theorem decrement_error {z : DecZero} {b : Bits} {c : Cause} (h : decrement z b = .error c) :
    c = .decZero ∧ true ∉ b ∧ (z = .error ∨ b.length = 0) := by
  simp only [decrement] at h
  split at h
  · cases h
  · cases z with
    | error => cases h; exact ⟨rfl, ‹_›, .inl rfl⟩
    | shrink =>
      by_cases hl : b.length = 0
      · simp only [hl, if_true] at h; cases h; exact ⟨rfl, ‹_›, .inr hl⟩
      · simp only [hl, if_false] at h; cases h

theorem subtractConstant_error {z : DecZero} {b : Bits} {k : Nat} {c : Cause}
    (h : subtractConstant z b k = .error c) :
    c = .decZero ∧ ∃ j x, j < k ∧ subtractConstant z b j = .ok x ∧ true ∉ x ∧ (z = .error ∨ x.length = 0) := by
  induction k with
  | zero => cases h
  | succ k ih =>
    simp only [subtractConstant] at h
    cases hk : subtractConstant z b k with
    | error c' =>
      rw [hk] at h; cases h
      obtain ⟨h1, j, x, hj, hx⟩ := ih hk
      exact ⟨h1, j, x, by omega, hx⟩
    | ok x =>
      rw [hk] at h
      obtain ⟨h1, h2⟩ := decrement_error h
      exact ⟨h1, k, x, by omega, hk, h2⟩

theorem shrink_error {b : Bits} {k : Nat} {c : Cause} (h : shrink b k = .error c) : c = .shrinkRange ∧ b.length < k := by
  simp only [shrink] at h; split at h <;> cases h; exact ⟨rfl, ‹_›⟩

theorem slice_error {b : Bits} {i n : Int} {c : Cause} (h : slice b i n = .error c) :
    c = .sliceRange ∧ OutOfRange i n b.length := by
  simp only [slice] at h; split at h <;> cases h; exact ⟨rfl, ‹_›⟩

theorem invertRange_error {b : Bits} {i n : Int} {c : Cause} (h : invertRange b i n = .error c) :
    c = .invrRange ∧ OutOfRange i n b.length := by
  simp only [invertRange] at h; split at h <;> cases h; exact ⟨rfl, ‹_›⟩

theorem flip_error {b : Bits} {i : Int} {c : Cause} (h : flip b i = .error c) :
    c = .flipRange ∧ (i < 0 ∨ (b.length : Int) ≤ i) := by
  simp only [flip] at h; split at h <;> cases h; exact ⟨rfl, ‹_›⟩

theorem compactEncode_error {v : Int} {c : Cause} (h : compactEncode v = .error c) : c = .negInteger ∧ v < 0 := by
  simp only [compactEncode] at h
  split at h
  · cases h; exact ⟨rfl, ‹_›⟩
  · have : ¬ v + 2 < 0 := by omega
    simp [fromInteger, this, Except.map] at h

/-- A count operand combined with a total function fails on a negative count only. -/
theorem countOperand_map_error {n : Int} {f : Nat → Bits} {c : Cause} (h : (countOperand n).map f = .error c) :
    c = .negCount ∧ n < 0 := by
  rcases countOperand_cases n with ⟨hn, e⟩ | ⟨hn, e⟩ <;> rw [e] at h <;> cases h
  exact ⟨rfl, hn⟩

/-- A count operand combined with a function that may fail. -/
theorem countOperand_bind_error {n : Int} {f : Nat → Except Cause Bits} {c : Cause}
    (h : (countOperand n).bind f = .error c) : (c = .negCount ∧ n < 0) ∨ (0 ≤ n ∧ f n.toNat = .error c) := by
  rcases countOperand_cases n with ⟨hn, e⟩ | ⟨hn, e⟩ <;> rw [e] at h
  · cases h; exact .inl ⟨rfl, hn⟩
  · exact .inr ⟨hn, h⟩

/-! ### Every command ends in one of four ways -/

/-- The inversion lemma: a command writes a vector register, or a scalar register, or the buffer, or it is CLRERR; a failure
never has the cause 0; capacities enter only at the end (parameters that agree on DEC_ZERO give the same result). -/
theorem execWith_cases (z : DecZero) (i : Instr) (s : State) :
    (∃ d r, destV i = some d ∧ destS i = none ∧ storesB i = false ∧ i ≠ .clrerr ∧ (∀ c, r = .error c → c ≠ .none) ∧
      ∀ p : Params, p.decZero = z → execWith p i s = retireV p d r s) ∨
    (∃ d n, destV i = none ∧ destS i = some d ∧ storesB i = false ∧ i ≠ .clrerr ∧
      ∀ p : Params, p.decZero = z → execWith p i s = retireS p d n s) ∨
    (∃ ys, destV i = none ∧ destS i = none ∧ storesB i = true ∧ i ≠ .clrerr ∧
      ∀ p : Params, p.decZero = z → execWith p i s = retireB p ys s) ∨
    (i = .clrerr ∧ ∀ p : Params, execWith p i s = .next (s.clearStatus.respond .ok)) := by
  cases i with
  | toint d a => exact .inr (.inl ⟨d, _, rfl, rfl, rfl, by simp, fun _ _ => rfl⟩)
  | hweight d a => exact .inr (.inl ⟨d, _, rfl, rfl, rfl, by simp, fun _ _ => rfl⟩)
  | equals d a b => exact .inr (.inl ⟨d, _, rfl, rfl, rfl, by simp, fun _ _ => rfl⟩)
  | len d a => exact .inr (.inl ⟨d, _, rfl, rfl, rfl, by simp, fun _ _ => rfl⟩)
  | decode d a => exact .inr (.inl ⟨d, _, rfl, rfl, rfl, by simp, fun _ _ => rfl⟩)
  | tobytes a => exact .inr (.inr (.inl ⟨_, rfl, rfl, rfl, by simp, fun _ _ => rfl⟩))
  | clrerr => exact .inr (.inr (.inr ⟨rfl, fun _ => rfl⟩))
  | fromint d a f =>
    exact .inl ⟨d, _, rfl, rfl, rfl, by simp, fun c h => by simp [(fromInteger_error h).1], fun _ _ => rfl⟩
  | frombytes d => exact .inl ⟨d, .ok _, rfl, rfl, rfl, by simp, (fun _ h => nomatch h), fun _ _ => rfl⟩
  | inc d a => exact .inl ⟨d, .ok _, rfl, rfl, rfl, by simp, (fun _ h => nomatch h), fun _ _ => rfl⟩
  | append d a f => exact .inl ⟨d, .ok _, rfl, rfl, rfl, by simp, (fun _ h => nomatch h), fun _ _ => rfl⟩
  | concat d a b => exact .inl ⟨d, .ok _, rfl, rfl, rfl, by simp, (fun _ h => nomatch h), fun _ _ => rfl⟩
  | trimend d a f => exact .inl ⟨d, .ok _, rfl, rfl, rfl, by simp, (fun _ h => nomatch h), fun _ _ => rfl⟩
  | reverse d a => exact .inl ⟨d, .ok _, rfl, rfl, rfl, by simp, (fun _ h => nomatch h), fun _ _ => rfl⟩
  | dec d a =>
    exact .inl ⟨d, decrement z (s.readV a), rfl, rfl, rfl, by simp, fun c h => by simp [(decrement_error h).1],
      fun p hp => by subst hp; rfl⟩
  | addk d a b =>
    exact .inl ⟨d, _, rfl, rfl, rfl, by simp, fun c h => by simp [(countOperand_map_error h).1], fun _ _ => rfl⟩
  | subk d a b =>
    refine .inl ⟨d, (countOperand (s.readS b)).bind (subtractConstant z (s.readV a)), rfl, rfl, rfl, by simp, ?_,
      fun p hp => by subst hp; rfl⟩
    intro c h
    rcases countOperand_bind_error h with ⟨rfl, _⟩ | ⟨_, h'⟩
    · simp
    · simp [(subtractConstant_error h').1]
  | grow d a b =>
    exact .inl ⟨d, _, rfl, rfl, rfl, by simp, fun c h => by simp [(countOperand_map_error h).1], fun _ _ => rfl⟩
  | shrink d a b =>
    refine .inl ⟨d, _, rfl, rfl, rfl, by simp, ?_, fun _ _ => rfl⟩
    intro c h
    rcases countOperand_bind_error h with ⟨rfl, _⟩ | ⟨_, h'⟩
    · simp
    · simp [(shrink_error h').1]
  | slice d a b c =>
    exact .inl ⟨d, _, rfl, rfl, rfl, by simp, fun c h => by simp [(slice_error h).1], fun _ _ => rfl⟩
  | flip d a b =>
    exact .inl ⟨d, _, rfl, rfl, rfl, by simp, fun c h => by simp [(flip_error h).1], fun _ _ => rfl⟩
  | invr d a b c =>
    exact .inl ⟨d, _, rfl, rfl, rfl, by simp, fun c h => by simp [(invertRange_error h).1], fun _ _ => rfl⟩
  | encode d a =>
    exact .inl ⟨d, _, rfl, rfl, rfl, by simp, fun c h => by simp [(compactEncode_error h).1], fun _ _ => rfl⟩

end Sys2Proof.Machine
end

