-- ==== Sys2Proof/Laws/PerInstr.lean ====
section
/-! SUPPORT. The statements made per instruction, one lemma per constructor: every command's word is a legal command word. -/

namespace Sys2Proof.Laws.LegalWord

/-- The word of the command passes the strict legality check of 30_encoding.md R44. -/
def Statement (i : Instr) : Prop := legal (encode i) = true

theorem fromint (d : VReg) (a : SReg) (f : Bool) : Statement (.fromint d a f) :=
  legal_encode _ rfl
theorem toint (d : SReg) (a : VReg) : Statement (.toint d a) :=
  legal_encode _ rfl
theorem tobytes (a : VReg) : Statement (.tobytes a) :=
  legal_encode _ rfl
theorem frombytes (d : VReg) : Statement (.frombytes d) :=
  legal_encode _ rfl
theorem inc (d a : VReg) : Statement (.inc d a) :=
  legal_encode _ rfl
theorem dec (d a : VReg) : Statement (.dec d a) :=
  legal_encode _ rfl
theorem addk (d a : VReg) (b : SReg) : Statement (.addk d a b) :=
  legal_encode _ rfl
theorem subk (d a : VReg) (b : SReg) : Statement (.subk d a b) :=
  legal_encode _ rfl
theorem grow (d a : VReg) (b : SReg) : Statement (.grow d a b) :=
  legal_encode _ rfl
theorem shrink (d a : VReg) (b : SReg) : Statement (.shrink d a b) :=
  legal_encode _ rfl
theorem append (d a : VReg) (f : Bool) : Statement (.append d a f) :=
  legal_encode _ rfl
theorem slice (d a : VReg) (b c : SReg) : Statement (.slice d a b c) :=
  legal_encode _ rfl
theorem concat (d a b : VReg) : Statement (.concat d a b) :=
  legal_encode _ rfl
theorem trimend (d a : VReg) (f : Bool) : Statement (.trimend d a f) :=
  legal_encode _ rfl
theorem reverse (d a : VReg) : Statement (.reverse d a) :=
  legal_encode _ rfl
theorem hweight (d : SReg) (a : VReg) : Statement (.hweight d a) :=
  legal_encode _ rfl
theorem flip (d a : VReg) (b : SReg) : Statement (.flip d a b) :=
  legal_encode _ rfl
theorem equals (d : SReg) (a b : VReg) : Statement (.equals d a b) :=
  legal_encode _ rfl
theorem invr (d a : VReg) (b c : SReg) : Statement (.invr d a b c) :=
  legal_encode _ rfl
theorem len (d : SReg) (a : VReg) : Statement (.len d a) :=
  legal_encode _ rfl
theorem encode (d : VReg) (a : SReg) : Statement (.encode d a) :=
  legal_encode _ rfl
theorem decode (d : SReg) (a : VReg) : Statement (.decode d a) :=
  legal_encode _ rfl
theorem clrerr : Statement (.clrerr) :=
  legal_encode _ rfl

end Sys2Proof.Laws.LegalWord
end

