-- ==== Sys2Proof/Tests/Slice0.lean ====
section
/-! SUPPORT. The model's own tests: ill-formed words, words written out from the spec's encoding, one step on small states against
values of spec/95_test_vectors.md, and, for every obligation with hypotheses, a witness that meets them. -/

namespace Sys2Proof.Tests

open Sys2Proof.Machine

/-- A small state: `v0`, `v1` and `s0`, `s1` given; the other vector registers hold "", the other scalars 0. -/
def st (v0 v1 : Bits) (s0 s1 : Int) : State :=
  { State.reset with
    vregs := #v[v0, v1, [], [], [], [], [], []]
    sregs := #v[s0, s1, 0, 0, 0, 0, 0, 0] }

/-- The state an outcome answers, if it is a next state. -/
def after : Out → Option State
  | .next s => some s
  | .fault _ => none
  | .refused _ => none

/-- What `f` reads in the next state of one command word from `s`. -/
def one {α : Type} (f : State → α) (w : Word) (s : State) : Option α := (after (step (s.issue w))).map f

/-- The bit vector a string of the spec stands for (index 0 first). -/
def bits (t : String) : Bits := t.toList.map (· == '1')

/-! ### Well-formed fields (30_encoding.md R44): one ill-formed term for each check -/

theorem test_wf_inc : (Fields.mk 5 1 2 0 0 false 0).wellFormed .da = true := by decide
theorem test_ill_reserved_bits : (Fields.mk 5 1 2 0 0 false 1).wellFormed .da = false := by decide
theorem test_ill_unused_d : (Fields.mk 3 1 2 0 0 false 0).wellFormed .a = false := by decide
theorem test_ill_unused_a : (Fields.mk 4 1 1 0 0 false 0).wellFormed .d = false := by decide
theorem test_ill_unused_b : (Fields.mk 5 1 2 1 0 false 0).wellFormed .da = false := by decide
theorem test_ill_unused_c : (Fields.mk 7 1 2 3 1 false 0).wellFormed .dab = false := by decide
theorem test_ill_unused_f : (Fields.mk 12 1 2 3 4 true 0).wellFormed .dabc = false := by decide
theorem test_ill_reserved_opcode : opcodeRow 0 = none ∧ opcodeRow 24 = none ∧ opcodeRow 31 = none := ⟨rfl, rfl, rfl⟩

/-- The illegal words of 95_test_vectors.md section 2.7. -/
theorem test_illegal_words :
    ([0x00000000, 0x00000018, 0x0000001F, 0x00040005, 0x80000005, 0x00000805, 0x00020005, 0x00000037, 0x00000023,
      0x00000104, 0x00004007, 0x0002000C, 0x00004001] : List Word).all (fun w => !legal w && !legalByTable w) = true := rfl

/-- Why three of them are rejected. -/
theorem test_reject_names :
    decode 0x00000018 = .error .reservedOpcode ∧ decode 0x00040005 = .error .reservedBits ∧
      decode 0x00000805 = .error .unusedField := ⟨rfl, rfl, rfl⟩

/-! ### Words of 30_encoding.md section 8, decoded and encoded -/

theorem test_word_fromint : decode 0x00020001 = .ok (.fromint 0 0 true) ∧ encode (.fromint 0 0 true) = 0x00020001 := ⟨rfl, rfl⟩
theorem test_word_toint : decode 0x00000162 = .ok (.toint 3 1) ∧ encode (.toint 3 1) = 0x00000162 := ⟨rfl, rfl⟩
theorem test_word_tobytes : decode 0x00000203 = .ok (.tobytes 2) ∧ encode (.tobytes 2) = 0x00000203 := ⟨rfl, rfl⟩
theorem test_word_frombytes : decode 0x00000084 = .ok (.frombytes 4) ∧ encode (.frombytes 4) = 0x00000084 := ⟨rfl, rfl⟩
theorem test_word_inc : decode 0x00000125 = .ok (.inc 1 1) ∧ encode (.inc 1 1) = 0x00000125 := ⟨rfl, rfl⟩
theorem test_word_dec : decode 0x00000146 = .ok (.dec 2 1) ∧ encode (.dec 2 1) = 0x00000146 := ⟨rfl, rfl⟩
theorem test_word_addk : decode 0x00000807 = .ok (.addk 0 0 1) ∧ encode (.addk 0 0 1) = 0x00000807 := ⟨rfl, rfl⟩
theorem test_word_subk : decode 0x00000928 = .ok (.subk 1 1 1) ∧ encode (.subk 1 1 1) = 0x00000928 := ⟨rfl, rfl⟩
theorem test_word_grow : decode 0x00001029 = .ok (.grow 1 0 2) ∧ encode (.grow 1 0 2) = 0x00001029 := ⟨rfl, rfl⟩
theorem test_word_shrink : decode 0x00002A4A = .ok (.shrink 2 2 5) ∧ encode (.shrink 2 2 5) = 0x00002A4A := ⟨rfl, rfl⟩
theorem test_word_append : decode 0x0002012B = .ok (.append 1 1 true) ∧ encode (.append 1 1 true) = 0x0002012B := ⟨rfl, rfl⟩
theorem test_word_slice : decode 0x0001626C = .ok (.slice 3 2 4 5) ∧ encode (.slice 3 2 4 5) = 0x0001626C := ⟨rfl, rfl⟩
theorem test_word_concat : decode 0x0000084D = .ok (.concat 2 0 1) ∧ encode (.concat 2 0 1) = 0x0000084D := ⟨rfl, rfl⟩
theorem test_word_trimend : decode 0x0000002E = .ok (.trimend 1 0 false) ∧ encode (.trimend 1 0 false) = 0x0000002E := ⟨rfl, rfl⟩
theorem test_word_reverse : decode 0x0000002F = .ok (.reverse 1 0) ∧ encode (.reverse 1 0) = 0x0000002F := ⟨rfl, rfl⟩
theorem test_word_hweight : decode 0x00000010 = .ok (.hweight 0 0) ∧ encode (.hweight 0 0) = 0x00000010 := ⟨rfl, rfl⟩
theorem test_word_flip : decode 0x00001031 = .ok (.flip 1 0 2) ∧ encode (.flip 1 0 2) = 0x00001031 := ⟨rfl, rfl⟩
theorem test_word_equals : decode 0x00001AD2 = .ok (.equals 6 2 3) ∧ encode (.equals 6 2 3) = 0x00001AD2 := ⟨rfl, rfl⟩
theorem test_word_invr : decode 0x0000E853 = .ok (.invr 2 0 5 3) ∧ encode (.invr 2 0 5 3) = 0x0000E853 := ⟨rfl, rfl⟩
theorem test_word_len : decode 0x00000054 = .ok (.len 2 0) ∧ encode (.len 2 0) = 0x00000054 := ⟨rfl, rfl⟩
theorem test_word_encode : decode 0x00000075 = .ok (.encode 3 0) ∧ encode (.encode 3 0) = 0x00000075 := ⟨rfl, rfl⟩
theorem test_word_decode : decode 0x000003F6 = .ok (.decode 7 3) ∧ encode (.decode 7 3) = 0x000003F6 := ⟨rfl, rfl⟩
theorem test_word_clrerr : decode 0x00000017 = .ok (.clrerr) ∧ encode (.clrerr) = 0x00000017 := ⟨rfl, rfl⟩

/-- Every row's pattern, as the first command after reset, is decoded and runs to an ok response. -/
theorem test_first_command_after_reset :
    ∀ r ∈ opcodeTable, (after (step (State.reset.withFetchWord 32 r.pattern.toNat))).map (·.responses) = some [.ok] := by
  decide

theorem test_decodeTableWord : decodeTableWord 32 0x125 = some (.inc 1 1) ∧ decodeTableWord 32 0x18 = none := ⟨rfl, rfl⟩

/-! ### One step, against 95_test_vectors.md section 2 -/

/-- 2.1: 256 in whole bytes is 16 bits. -/
theorem test_fromint_bytes : one (·.readV 0) 0x00000001 (st [] [] 256 0) = some (bits "0000000010000000") := by decide
/-- 2.1: -1 raises NEG_INTEGER; STATUS 0x05 (2.7). -/
theorem test_fromint_negative :
    one (fun s => (s.readV 0, s.status.word)) 0x00020001 (st (bits "1") [] (-1) 0) = some (bits "1", 0x05) := by decide
/-- 2.1: "0010" is 4. -/
theorem test_toint : one (·.readS 3) 0x00000162 (st [] (bits "0010") 9 9) = some 4 := by decide
/-- 2.1: nine bits make two bytes. -/
theorem test_tobytes_nine : one (·.readB) 0x00000003 (st (bits "101100001") [] 0 0) = some [0x0D, 0x01] := by decide
/-- 2.1: the zero-length vector makes one zero byte. -/
theorem test_tobytes_empty : one (·.readB) 0x00000003 (st [] [] 0 0) = some [0x00] := by decide
/-- 2.1: two bytes make sixteen bits. -/
theorem test_frombytes :
    one (·.readV 4) 0x00000084 { st [] [] 0 0 with buf := [(0, 0x0D), (1, 0x01)] } = some (bits "1011000010000000") := by
  decide
/-- 2.2: growth, source and destination the same. -/
theorem test_inc_grows : one (·.readV 1) 0x00000125 (st [] (bits "111") 0 0) = some (bits "0001") := by decide
/-- 2.2: the carry stops at the top zero. -/
theorem test_inc_stops : one (·.readV 1) 0x00000125 (st [] (bits "1110") 0 0) = some (bits "0001") := by decide
/-- 2.2: the length is kept. -/
theorem test_dec : one (·.readV 2) 0x00000146 (st [] (bits "0001") 0 0) = some (bits "1110") := by decide
/-- 2.2: no 1 bit; STATUS 0x19 (2.7). -/
theorem test_dec_zero : one (·.status.word) 0x00000146 (st [] (bits "000") 0 0) = some 0x19 := by decide
/-- 2.2, DEC_ZERO = Shrink: "000" gives "11". -/
theorem test_dec_zero_shrink :
    (after (stepWith (.unbounded .shrink) ((st [] (bits "000") 0 0).issue 0x00000146))).map
      (·.readV 2) = some (bits "11") := by decide
/-- 2.2: "1" + 7. -/
theorem test_addk : one (·.readV 0) 0x00000807 (st (bits "1") [] 0 7) = some (bits "0001") := by decide
/-- 2.2: "001" - 2, and one more decrement than the value. -/
theorem test_subk : one (·.readV 1) 0x00000928 (st [] (bits "001") 0 2) = some (bits "010") := by decide
theorem test_subk_shrink :
    (after (stepWith (.unbounded .shrink) ((st [] (bits "00001") 0 17).issue 0x00000928))).map
      (·.readV 1) = some (bits "1111") := by decide
/-- 2.3: the value stays 3; a negative count is STATUS 0x15 (2.7). -/
theorem test_grow : one (·.readV 1) 0x00000829 (st (bits "11") [] 0 2) = some (bits "1100") := by decide
theorem test_grow_negative : one (·.status.word) 0x00000829 (st (bits "1") [] 0 (-1)) = some 0x15 := by decide
/-- 2.3: a set top bit is dropped; one more than the length is STATUS 0x09 (2.7). -/
theorem test_shrink : one (·.readV 1) 0x0000082A (st (bits "1011") [] 0 1) = some (bits "101") := by decide
theorem test_shrink_range : one (·.status.word) 0x0000082A (st (bits "101") [] 0 4) = some 0x09 := by decide
/-- 2.3: append 1 to "01". -/
theorem test_append : one (·.readV 1) 0x0002012B (st [] (bits "01") 0 0) = some (bits "011") := by decide
/-- 2.4: start 1, count 3; start 5, count 1 is STATUS 0x0D (2.7). -/
theorem test_slice : one (·.readV 1) 0x0000402C (st (bits "01101") [] 1 3) = some (bits "110") := by decide
theorem test_slice_range : one (·.status.word) 0x0000402C (st (bits "01101") [] 5 1) = some 0x0D := by decide
/-- 2.4: the first operand is the low part. -/
theorem test_concat : one (·.readV 2) 0x0000084D (st (bits "110") (bits "01") 0 0) = some (bits "11001") := by decide
/-- 2.4: trim ones; all equal. -/
theorem test_trimend : one (·.readV 1) 0x0002002E (st (bits "0111") [] 0 0) = some (bits "0") := by decide
theorem test_trimend_all : one (·.readV 1) 0x0000002E (st (bits "000") (bits "1") 0 0) = some [] := by decide
/-- 2.4: 11 becomes 13. -/
theorem test_reverse : one (·.readV 1) 0x0000002F (st (bits "1101") [] 0 0) = some (bits "1011") := by decide
/-- 2.5: three set bits. -/
theorem test_hweight : one (·.readS 0) 0x00000010 (st (bits "1101") [] 9 9) = some 3 := by decide
/-- 2.5: the top bit is toggled, the length kept; index n is STATUS 0x11 (2.7). -/
theorem test_flip : one (·.readV 1) 0x00000031 (st (bits "101") [] 2 0) = some (bits "100") := by decide
theorem test_flip_range : one (·.status.word) 0x00000031 (st (bits "101") [] 3 0) = some 0x11 := by decide
/-- 2.5: the same value, different lengths. -/
theorem test_equals : one (·.readS 6) 0x000008D2 (st (bits "01") (bits "010") 0 0) = some 0 := by decide
/-- 2.4: bits 1 and 2; start n with count 1 is STATUS 0x1D (2.7). -/
theorem test_invr : one (·.readV 2) 0x00004053 (st (bits "0011") [] 1 2) = some (bits "0101") := by decide
theorem test_invr_range : one (·.status.word) 0x00004053 (st (bits "0011") [] 4 1) = some 0x1D := by decide
/-- 2.5: high zeros count. -/
theorem test_len : one (·.readS 2) 0x00000054 (st (bits "0100") [] 0 0) = some 4 := by decide
/-- 2.6: encode(1000). -/
theorem test_encode : one (·.readV 3) 0x00000075 (st [] [] 1000 0) = some (bits "001010000") := by decide
/-- S1, S3: encode(0) is "0", and a large value keeps its length. -/
theorem test_encode_zero : one (·.readV 3) 0x00000075 (st [] [] 0 0) = some (bits "0") := by decide
/-- 2.6: "010" is 10; the zero-length vector is 0. -/
theorem test_decode : one (·.readS 7) 0x000000F6 (st (bits "010") [] 0 0) = some 10 := by decide
theorem test_decode_empty : one (·.readS 7) 0x000000F6 (st [] [] 5 5) = some 0 := by decide
/-- 46_system.md R135: STATUS 0x09 is cleared. -/
theorem test_clrerr :
    one (·.status.word) 0x00000017 { st [] [] 0 0 with status := ⟨.domainError, .shrinkRange⟩ } = some 0 := by decide
/-- P4, steps 2 and 3: the first error stays latched, an illegal word is answered by its own error. -/
theorem test_first_error_wins :
    one (fun s => (s.status.word, s.responses)) 0x00000000 { st [] [] 0 0 with status := ⟨.domainError, .shrinkRange⟩ } =
      some (0x09, [.error .illegalCommand .none]) := by decide
/-- A finite LMAX refuses the result that does not fit (00_scope.md R3). -/
theorem test_capacity_refuses :
    stepWith { Config.params with lmax := some 3 } ((st [] (bits "111") 0 0).issue 0x00000125)
      = .refused .vectorCapacity := rfl

/-! ### Witnesses: for every obligation with hypotheses, inputs that meet them, each clause at a boundary of its range -/

theorem witness_DecodingTotalUnambiguousCounted :
    decode 0x00000125 = .ok (.inc 1 1) ∧ (decode 0x00000000).toOption = none := ⟨rfl, rfl⟩

theorem witness_IllegalWordRaisesIllegalCommand :
    (((0x00000000 : Word).toNat % 32 = 0) ∧ (24 ≤ (0x00000018 : Word).toNat % 32) ∧
      ((0x00040005 : Word).toNat / 262144 ≠ 0) ∧ legalByTable 0x00000805 = false) ∧
    (State.reset.issue 0x00000805).inputs = .command 0x00000805 :: [] := by decide

theorem witness_StepRunsDecodedCommand :
    (State.reset.issue 0x00000125).inputs = .command 0x00000125 :: [] ∧ decode 0x00000125 = .ok (.inc 1 1) := ⟨rfl, rfl⟩

/-- One state per clause: `inputs` may be any list, so each clause's hypothesis is met by the state that holds that move. -/
theorem witness_HostAccessesBetweenCommands :
    State.reset.inputs = [] ∧
    ∀ m : HostMove, ({ State.reset with inputs := [m] } : State).inputs = m :: [] := ⟨rfl, fun _ => rfl⟩

theorem witness_ResetClearsStatus :
    ({ st [] [] 0 0 with inputs := [.reset, .readB], status := ⟨.domainError, .decZero⟩ } : State).inputs
      = .reset :: [.readB] := rfl

theorem witness_StepKeepsInvariant :
    (State.reset.issue 0x00000003).wf = true ∧ (after (step (State.reset.issue 0x00000003))).isSome = true := by decide

/-- Capacities the reset state just fits. -/
def tight : Params := { lmax := some 2, slen := some 2, bmax := some 1, decZero := .error }

theorem fits_tight_reset : State.reset.Fits tight := ⟨by decide, by decide, by decide⟩

theorem witness_StepKeepsCapacities :
    State.reset.Fits tight ∧ (State.reset.issue 0x00000006).Fits tight ∧
      (after (stepWith tight (State.reset.issue 0x00000006))).isSome = true :=
  ⟨fits_tight_reset, fits_tight_reset, by decide⟩

/-- Both clauses: DEC of "11" fits two bits, INC of it does not. -/
theorem witness_ResultBeyondCapacityIsRefused :
    State.reset.Fits tight ∧ (after (execWith tight (.dec 0 0) State.reset)).isSome = true ∧
      execWith tight (.inc 0 0) State.reset = .refused .vectorCapacity := ⟨fits_tight_reset, by decide, rfl⟩

theorem witness_StatusWordLayout :
    (Status.mk .illegalCommand .none).wf = true ∧ (Status.mk .none .none).wf = true := by decide

/-- The three ways STATUS changes. -/
theorem witness_StatusChangesOnlyByErrorClrerrReset :
    one (·.status) 0x00000018 State.reset = some ⟨.illegalCommand, .none⟩ ∧
    one (·.status) 0x00000017 { State.reset with status := ⟨.domainError, .decZero⟩ } = some ⟨.none, .none⟩ ∧
    (after (step { State.reset with status := ⟨.domainError, .decZero⟩, inputs := [.reset] })).map (·.status)
      = some ⟨.none, .none⟩ := by decide

theorem witness_OneResponsePerCommand :
    (after (step (State.reset.issue 0x00000018))).map (·.responses.length) = some 1 ∧
    (after (step { State.reset with inputs := [.readStatus] })).map (·.responses.length) = some 0 := by decide

/-- A run with an error and a run without. -/
theorem witness_LatchHoldsFirstErrorOfRun :
    (∀ m ∈ [HostMove.command 0x00000018, .command 0x00000125], m ≠ .reset ∧ m ≠ .command 0x00000017) ∧
    (after (Sys2Proof.core.run 2 { State.reset with inputs := [.command 0x00000018, .command 0x00000125] })).map
      (fun t => (t.responses, t.status)) = some ([.error .illegalCommand .none, .ok], ⟨.illegalCommand, .none⟩) ∧
    (after (Sys2Proof.core.run 1 (State.reset.issue 0x00000125))).map (fun t => (t.responses, t.status))
      = some ([.ok], ⟨.none, .none⟩) := by decide

theorem witness_ErrorHasNoEffectButResponseAndLatch :
    (after (execWith tight (.dec 0 0) (st [] [] 0 0))).map (·.responses) = some [.error .domainError .decZero] ∧
    (after (stepWith tight (State.reset.issue 0))).map (·.responses) = some [.error .illegalCommand .none] := by decide

theorem witness_DomainErrorExactlyByTable :
    RaisesDomain (.unbounded .error) (.subk 0 0 0) .negCount (st [] [] (-1) 0) ∧
    (0 : Int) ≤ (st (bits "1") [] 2 0).readS 0 ∧ (val ((st (bits "1") [] 2 0).readV 0) : Int) < 2 :=
  ⟨.inl ⟨rfl, by decide⟩, by decide, by decide⟩

theorem witness_EveryCommandWritesOnlyItsDestination :
    (after (exec (.inc 0 1) State.reset)).isSome = true ∧ destV (.inc 0 1) ≠ some 1 ∧ destS (.inc 0 1) ≠ some 0 ∧
      storesB (.inc 0 1) = false := by decide

/-- Two states that agree on the source alone. -/
theorem witness_ResultDependsOnlyOnSources :
    let s := st (bits "1") [] 3 4
    let s' := { st (bits "1") (bits "0") 5 6 with status := ⟨.domainError, .decZero⟩ }
    (∀ j ∈ readsV (.inc 1 0), s.readV j = s'.readV j) ∧ (∀ j ∈ readsS (.inc 1 0), s.readS j = s'.readS j) ∧
      (loadsB (.inc 1 0) = true → s.readB = s'.readB) := by decide

/-- The last address inside and the first outside. -/
theorem witness_BufferAddressesAreItsIndices :
    Memory.wf [(0, 7), (1, 9)] = true ∧ Memory.read [(0, 7), (1, 9)] 1 = some 9 ∧ Memory.read [(0, 7), (1, 9)] 2 = none := by
  decide

theorem witness_BlenCountsBits : 0 < 1 ∧ blen 1 = 1 ∧ blen 255 = 8 ∧ blen 256 = 9 := by decide

theorem witness_FromintWritesBinaryDigits :
    (st [] [] 0 (-1)).readS 0 = ((0 : Nat) : Int) ∧ (st [] [] 0 (-1)).readS 1 < 0 := by decide

theorem witness_IncRipplesCarry :
    ((st (bits "110") (bits "11") 0 0).readV 0)[2]? = some false ∧
    (∀ i < 2, ((st (bits "110") (bits "11") 0 0).readV 0)[i]? = some true) ∧
    (∀ b ∈ (st (bits "110") (bits "11") 0 0).readV 1, b = true) := by decide

theorem witness_DecRipplesBorrow :
    true ∈ (st (bits "001") (bits "00") 0 0).readV 0 ∧ true ∉ (st (bits "001") (bits "00") 0 0).readV 1 ∧
    ((st (bits "001") (bits "00") 0 0).readV 0)[2]? = some true ∧
    (∀ i < 2, ((st (bits "001") (bits "00") 0 0).readV 0)[i]? = some false) := by decide

theorem witness_DecOfZeroFollowsParameter :
    true ∉ (st (bits "0") [] 0 0).readV 0 ∧ 1 ≤ ((st (bits "0") [] 0 0).readV 0).length ∧
    ((st (bits "0") [] 0 0).readV 1).length = 0 ∧ true ∈ (st (bits "1") [] 0 0).readV 0 := by decide

theorem witness_AddkAddsCount :
    (st [] [] 0 (-1)).readS 0 = ((0 : Nat) : Int) ∧ (st [] [] 0 (-1)).readS 1 < 0 := by decide

/-- `k` at the value, one above it, and negative. -/
theorem witness_SubkSubtractsCount :
    ((st (bits "01") [] 2 3).readS 0 = ((2 : Nat) : Int) ∧ 2 ≤ val ((st (bits "01") [] 2 3).readV 0)) ∧
    ((val ((st (bits "01") [] 2 3).readV 0) : Int) < (st (bits "01") [] 2 3).readS 1) ∧
    (st [] [] (-1) 0).readS 0 < 0 := by decide

theorem witness_SubkFollowsParameter :
    1 ≤ val (bits "1") ∧ val (bits "1") < 2 ∧ 1 ≤ (bits "1").length ∧ (st [] [] 1 (-1)).readS 0 = ((1 : Nat) : Int) ∧
    (st [] [] 1 (-1)).readS 1 < 0 := by decide

theorem witness_GrowAddsHighZeros :
    (st [] [] 0 (-1)).readS 0 = ((0 : Nat) : Int) ∧ (st [] [] 0 (-1)).readS 1 < 0 := by decide

/-- `k` at the length, one above it, and negative. -/
theorem witness_ShrinkDropsTopBits :
    ((st (bits "10") [] 2 3).readS 0 = ((2 : Nat) : Int) ∧ 2 ≤ ((st (bits "10") [] 2 3).readV 0).length) ∧
    (((st (bits "10") [] 2 3).readV 0).length : Int) < (st (bits "10") [] 2 3).readS 1 ∧
    (st [] [] (-1) 0).readS 0 < 0 := by decide

/-- The range at the top end with count 0; one bit past it; a negative start; a negative count. -/
theorem witness_SliceCopiesHalfOpenRange :
    ((st (bits "10") [] 2 0).readS 0 = ((2 : Nat) : Int) ∧ (st (bits "10") [] 2 0).readS 1 = ((0 : Nat) : Int) ∧
      2 + 0 ≤ ((st (bits "10") [] 2 0).readV 0).length) ∧
    (((st (bits "10") [] 2 1).readV 0).length : Int) < (st (bits "10") [] 2 1).readS 0 + (st (bits "10") [] 2 1).readS 1 ∧
    (st [] [] (-1) 0).readS 0 < 0 ∧ (st [] [] 0 (-1)).readS 1 < 0 := by decide

theorem witness_TrimendStopsAtHighestDifferingBit :
    ((st (bits "010") (bits "00") 0 0).readV 0)[1]? = some (!false) ∧
    (∀ i < 3, 1 < i → ((st (bits "010") (bits "00") 0 0).readV 0)[i]? ≠ some (!false)) ∧
    ((st (bits "010") (bits "00") 0 0).readV 0)[3]? = none ∧
    (∀ b ∈ (st (bits "010") (bits "00") 0 0).readV 1, b = false) ∧
    val ((st (bits "010") (bits "00") 0 0).readV 0) ≠ 0 ∧ val ((st (bits "010") (bits "00") 0 0).readV 1) = 0 := by decide

theorem witness_InvrInvertsHalfOpenRange :
    ((st (bits "10") [] 1 1).readS 0 = ((1 : Nat) : Int) ∧ (st (bits "10") [] 1 1).readS 1 = ((1 : Nat) : Int) ∧
      1 + 1 ≤ ((st (bits "10") [] 1 1).readV 0).length) ∧
    (((st (bits "10") [] 2 1).readV 0).length : Int) < (st (bits "10") [] 2 1).readS 0 + (st (bits "10") [] 2 1).readS 1 ∧
    (st [] [] (-1) 0).readS 0 < 0 ∧ (st [] [] 0 (-1)).readS 1 < 0 := by decide

/-- The last index, the first outside, and a negative one. -/
theorem witness_FlipTogglesOneBit :
    ((st (bits "10") [] 1 2).readS 0 = ((1 : Nat) : Int) ∧ 1 < ((st (bits "10") [] 1 2).readV 0).length) ∧
    (((st (bits "10") [] 1 2).readV 0).length : Int) ≤ (st (bits "10") [] 1 2).readS 1 ∧
    (st [] [] (-1) 0).readS 0 < 0 := by decide

theorem witness_EqualsComparesLengthAndBits :
    (((st [] [] 0 0).readV 0).length = ((st [] [] 0 0).readV 1).length ∧
      ∀ i < ((st [] [] 0 0).readV 0).length, ((st [] [] 0 0).readV 0)[i]? = ((st [] [] 0 0).readV 1)[i]?) ∧
    ¬ ((st (bits "0") [] 0 0).readV 0).length = ((st (bits "0") [] 0 0).readV 1).length := by decide

theorem witness_EncodeInvertsInteriorDropsTop :
    (st [] [] 0 (-1)).readS 0 = ((0 : Nat) : Int) ∧ (st [] [] 0 (-1)).readS 1 < 0 := by decide

theorem witness_EncodeIsBijectionOntoNonEmpty :
    compactEncode ((0 : Nat) : Int) = .ok (bits "0") ∧ compactEncode ((4 : Nat) : Int) = .ok (bits "00") ∧ 0 ≤ 4 ∧
      bits "0" ≠ [] := ⟨rfl, rfl, by decide, by decide⟩

theorem witness_DecodeRestoresAndRemovesBias :
    (st [] (bits "0") 0 0).readV 0 = [] ∧ (st [] (bits "0") 0 0).readV 1 ≠ [] := by decide

theorem witness_CodecRoundTrips :
    0 ≤ (st (bits "0") [] 0 0).readS 0 ∧ (st (bits "0") [] 0 0).readV 0 ≠ [] := by decide

theorem witness_WrongLengthDecodesToOtherInteger :
    bits "010" ≠ [] ∧ bits "0" ≠ [] ∧ compactDecode (bits "010") = compactDecode (bits "010") := by decide

theorem witness_DecodeRefinesPrimitives : bits "0" ≠ [] := by decide

/-- 0 has the shortest non-empty byte sequence (0x00). -/
theorem witness_ConversionLaws :
    ([0] : List Byte) ≠ [] ∧ Nat.ofDigits 256 (([0] : List Byte).map BitVec.toNat) = 0 ∧ val [] = 0 := by decide

theorem witness_IncDecInverse : 1 ≤ val ((st (bits "1") [] 0 0).readV 0) := by decide

theorem witness_GrowShrinkInverse :
    0 ≤ (st (bits "10") [] 2 0).readS 0 ∧ (st (bits "10") [] 2 0).readS 0 = ((2 : Nat) : Int) ∧
      2 ≤ ((st (bits "10") [] 2 0).readV 0).length := by decide

theorem witness_ConcatSliceInverse : 2 ≤ (bits "10").length := by decide

theorem witness_ClrerrClearsLatch : (0x00000037 : Word).toNat % 32 = 23 ∧ (0x00000037 : Word) ≠ 0x00000017 := by decide

end Sys2Proof.Tests
end

/-! Proofs of the family 00_scope.md: what a finite capacity changes (R3). Every command ends in one of the shared ends of
Ops.lean, and there the one value written is the only thing that may fail to fit. -/

namespace Sys2Proof.Machine

/-! ### Which states fit the capacities: the registers and the buffer alone matter -/

@[simp] theorem State.readB_writeB (s : State) (ys : List Byte) : (s.writeB ys).readB = ys := Memory.bytes_ofBytes ys

@[simp] theorem State.fits_respond (p : Params) (s : State) (r : Response) : (s.respond r).Fits p ↔ s.Fits p := Iff.rfl

@[simp] theorem State.fits_raise (p : Params) (s : State) (k : Kind) (c : Cause) : (s.raise k c).Fits p ↔ s.Fits p := Iff.rfl

@[simp] theorem State.fits_clearStatus (p : Params) (s : State) : s.clearStatus.Fits p ↔ s.Fits p := Iff.rfl

/-- Every state fits unbounded capacities. -/
theorem State.fits_unbounded (z : DecZero) (s : State) : s.Fits (.unbounded z) :=
  ⟨fun _ => fitsV_unbounded z _, fun _ => fitsS_unbounded z _, fitsB_unbounded z _⟩

section
variable {p : Params} {s : State} (hs : s.Fits p)
include hs

/-- After a write to `v[d]` the state fits exactly when the value written does. -/
theorem State.fits_writeV_iff (d : VReg) (x : Bits) : (s.writeV d x).Fits p ↔ fitsV p x = true := by
  obtain ⟨hV, hS, hB⟩ := hs
  constructor
  · rintro ⟨hV', -, -⟩
    simpa using hV' d
  · intro hx
    refine ⟨fun j => ?_, hS, hB⟩
    by_cases hj : j = d
    · simp [hj, hx]
    · simp [hj, hV j]

/-- After a write to `s[d]` the state fits exactly when the value written does. -/
theorem State.fits_writeS_iff (d : SReg) (n : Int) : (s.writeS d n).Fits p ↔ fitsS p n = true := by
  obtain ⟨hV, hS, hB⟩ := hs
  constructor
  · rintro ⟨-, hS', -⟩
    simpa using hS' d
  · intro hn
    refine ⟨hV, fun j => ?_, hB⟩
    by_cases hj : j = d
    · simp [hj, hn]
    · simp [hj, hS j]

/-- After a write to `B` the state fits exactly when the bytes written do. -/
theorem State.fits_writeB_iff (ys : List Byte) : (s.writeB ys).Fits p ↔ fitsB p ys = true := by
  obtain ⟨hV, hS, -⟩ := hs
  constructor
  · rintro ⟨-, -, hB'⟩
    simpa using hB'
  · intro hy
    exact ⟨hV, hS, by simpa using hy⟩

end

/-! ### The rule of R3, for the answer of the unbounded engine and that of the engine with capacities -/

/-- 00_scope.md R3 about one command: the unbounded engine answers `full`; the engine with parameters `p` answers the same if
that state fits `p`, and refuses otherwise. -/
def RefusesBeyondCapacity (p : Params) (full capped : Out) : Prop :=
  ∃ t, full = .next t ∧ (t.Fits p → capped = .next t) ∧ (¬ t.Fits p → ∃ r, capped = .refused r)

/-- A next state that fits, given by both engines. -/
theorem refusesBeyondCapacity_next {p : Params} {t : State} (ht : t.Fits p) :
    RefusesBeyondCapacity p (.next t) (.next t) :=
  ⟨t, rfl, fun _ => rfl, fun h => absurd ht h⟩

/-- A next state that does not fit, refused by the engine with capacities. -/
theorem refusesBeyondCapacity_refused {p : Params} {t : State} (r : Refusal) (ht : ¬ t.Fits p) :
    RefusesBeyondCapacity p (.next t) (.refused r) :=
  ⟨t, rfl, fun h => absurd h ht, fun _ => ⟨r, rfl⟩⟩

section
variable {p : Params} {s : State} (hs : s.Fits p) (z : DecZero)
include hs

theorem retireV_refusesBeyondCapacity (d : VReg) (r : Except Cause Bits) :
    RefusesBeyondCapacity p (retireV (.unbounded z) d r s) (retireV p d r s) := by
  rcases retireV_cases p d r s with ⟨c, rfl, e⟩ | ⟨x, rfl, hx, e⟩ | ⟨x, rfl, hx, e⟩ <;> rw [e]
  · exact refusesBeyondCapacity_next (by simpa using hs)
  · exact refusesBeyondCapacity_next (by simp [State.fits_writeV_iff hs, hx])
  · exact refusesBeyondCapacity_refused _ (by simp [State.fits_writeV_iff hs, hx])

theorem retireS_refusesBeyondCapacity (d : SReg) (n : Int) :
    RefusesBeyondCapacity p (retireS (.unbounded z) d n s) (retireS p d n s) := by
  rcases retireS_cases p d n s with ⟨hn, e⟩ | ⟨hn, e⟩ <;> rw [e]
  · exact refusesBeyondCapacity_next (by simp [State.fits_writeS_iff hs, hn])
  · exact refusesBeyondCapacity_refused _ (by simp [State.fits_writeS_iff hs, hn])

theorem retireB_refusesBeyondCapacity (ys : List Byte) :
    RefusesBeyondCapacity p (retireB (.unbounded z) ys s) (retireB p ys s) := by
  rcases retireB_cases p ys s with ⟨hy, e⟩ | ⟨hy, e⟩ <;> rw [e]
  · exact refusesBeyondCapacity_next (by simp [State.fits_writeB_iff hs, hy])
  · exact refusesBeyondCapacity_refused _ (by simp [State.fits_writeB_iff hs, hy])

/-- Every command keeps R3, since each ends in one of the shared ends, with a result that depends on DEC_ZERO alone. -/
theorem execWith_refusesBeyondCapacity (i : Instr) :
    RefusesBeyondCapacity p (execWith (.unbounded p.decZero) i s) (execWith p i s) := by
  rcases execWith_cases p.decZero i s with
    ⟨d, r, -, -, -, -, -, e⟩ | ⟨d, n, -, -, -, -, e⟩ | ⟨ys, -, -, -, -, e⟩ | ⟨-, e⟩
  · rw [e p rfl, e (.unbounded p.decZero) rfl]
    exact retireV_refusesBeyondCapacity hs _ d r
  · rw [e p rfl, e (.unbounded p.decZero) rfl]
    exact retireS_refusesBeyondCapacity hs _ d n
  · rw [e p rfl, e (.unbounded p.decZero) rfl]
    exact retireB_refusesBeyondCapacity hs _ ys
  · rw [e p, e (.unbounded p.decZero)]
    exact refusesBeyondCapacity_next (by simpa using hs)

end

/-- At the default parameters every command answers a next state: they are unbounded, so every result fits. -/
theorem exec_answers_next (i : Instr) (s : State) : ∃ t, exec i s = .next t := by
  obtain ⟨t, ht, -⟩ := execWith_refusesBeyondCapacity (State.fits_unbounded .error s) i
  exact ⟨t, execWith_default i s ▸ ht⟩

/-- Settles O13: at each shared end the next state fits exactly when the value written fits, which is what the end checks. -/
theorem resultBeyondCapacityIsRefused : Obligations.ResultBeyondCapacityIsRefused := by
  unfold Obligations.ResultBeyondCapacityIsRefused
  refine ⟨fun p i s hs => execWith_refusesBeyondCapacity hs i, fun i s r h => ?_⟩
  obtain ⟨t, ht⟩ := exec_answers_next i s
  rw [ht] at h
  cases h

end Sys2Proof.Machine

/-! Proofs of the family 30_encoding.md. The fields of a word determine it, so every question about words is asked of their
fields: what the decoder accepts, what encoding gives back, and what `w AND mask` keeps. -/

namespace Sys2Proof

/-! ### Legal words, the decoder and the encoder -/

/-- The field check, field by field (30_encoding.md R44). -/
theorem Fields.wellFormed_iff (fmt : Format) (x : Fields) :
    x.wellFormed fmt = true ↔
      x.zero = 0 ∧ (fmt.usesD = false → x.d = 0) ∧ (fmt.usesA = false → x.a = 0) ∧ (fmt.usesB = false → x.b = 0) ∧
        (fmt.usesC = false → x.c = 0) ∧ (fmt.usesF = false → x.f = false) := by
  simp [Fields.wellFormed, Format.unusedZero, Bool.or_eq_true, or_iff_not_imp_left, and_assoc]

/-- Words with the same fields are the same word (30_encoding.md R40). -/
theorem fieldsOf_injective : Function.Injective fieldsOf := fun v w h => by
  rw [← wordNumber_fieldsOf v, h, wordNumber_fieldsOf]

/-- Legality by fields: the opcode has a format and the fields are well-formed for it. -/
theorem legal_iff (w : Word) :
    legal w = true ↔
      ∃ fmt build, opcodeRow (fieldsOf w).op = some (fmt, build) ∧ (fieldsOf w).wellFormed fmt = true := by
  unfold legal
  cases opcodeRow (fieldsOf w).op with
  | none => simp
  | some row => simp [Prod.ext_iff]

/-- Everything the decoder accepts: the fields of a row's format, well-formed, give that row's command. -/
theorem decode_eq_ok_iff (w : Word) (i : Instr) :
    decode w = .ok i ↔
      ∃ fmt build, opcodeRow (fieldsOf w).op = some (fmt, build) ∧ (fieldsOf w).wellFormed fmt = true ∧
        build (fieldsOf w) = i := by
  unfold decode
  cases opcodeRow (fieldsOf w).op with
  | none => simp
  | some row =>
    obtain ⟨fmt, build⟩ := row
    by_cases hz : (fieldsOf w).zero = 0 <;> cases hu : fmt.unusedZero (fieldsOf w) <;>
      simp [Fields.wellFormed, Prod.ext_iff, hz, hu]

/-- The decoder accepts exactly the legal words. -/
theorem exists_decode_eq_ok_iff (w : Word) : (∃ i, decode w = .ok i) ↔ legal w = true := by
  rw [legal_iff]
  constructor
  · rintro ⟨i, hi⟩
    obtain ⟨fmt, build, hrow, hwf, -⟩ := (decode_eq_ok_iff w i).mp hi
    exact ⟨fmt, build, hrow, hwf⟩
  · rintro ⟨fmt, build, hrow, hwf⟩
    exact ⟨build (fieldsOf w), (decode_eq_ok_iff w _).mpr ⟨fmt, build, hrow, hwf, rfl⟩⟩

/-- Every command is read back from its word. -/
theorem decode_encode (i : Instr) : decode (encode i) = .ok i := by
  unfold decode
  rw [fieldsOf_encode]
  cases i <;> rfl

/-- A row's command keeps every field its format uses, so encoding it gives the well-formed fields back. -/
theorem encodeFields_build (x : Fields) {fmt : Format} {build : Fields → Instr}
    (hrow : opcodeRow x.op = some (fmt, build)) (hwf : x.wellFormed fmt = true) : encodeFields (build x) = x := by
  obtain ⟨op, d, a, b, c, f, zero⟩ := x
  rw [Fields.wellFormed_iff] at hwf
  -- one case per opcode with a format; the reserved ones contradict `hrow`
  fin_cases op <;> cases hrow
  all_goals
    simp_all [Format.usesD, Format.usesA, Format.usesB, Format.usesC, Format.usesF, encodeFields, Fields.blank]

/-- A word that decodes to a command is that command's word: the decoder is strict (30_encoding.md R44). -/
theorem encode_of_decode_eq_ok {w : Word} {i : Instr} (h : decode w = .ok i) : encode i = w := by
  obtain ⟨fmt, build, hrow, hwf, rfl⟩ := (decode_eq_ok_iff w i).mp h
  rw [encode, encodeFields_build _ hrow hwf, wordNumber_fieldsOf]

/-- The decoder and the encoder are inverse to each other on the legal words. -/
theorem decode_eq_ok_iff_encode_eq (w : Word) (i : Instr) : decode w = .ok i ↔ encode i = w :=
  ⟨encode_of_decode_eq_ok, fun h => h ▸ decode_encode i⟩

theorem encode_injective : Function.Injective encode := fun i j h => by
  have hij : Except.ok (ε := Reject) i = .ok j := by rw [← decode_encode i, h, decode_encode]
  exact Except.ok.inj hij

/-! ### The number of legal words (30_encoding.md R46) -/

/-- The commands by their constructors, as a sum of products of operands. -/
def instrEquiv := proxy_equiv% Instr

/-- There are 12689 commands: every operand is a register number (8 values) or a bit. -/
theorem card_instr : Nat.card Instr = 12689 := by
  rw [← Nat.card_congr instrEquiv]
  simp [VReg, SReg]

/-- The words the decoder accepts. -/
def legalWords : Finset Word := {w | legal w = true}

@[simp] theorem mem_legalWords (w : Word) : w ∈ legalWords ↔ ∃ i, decode w = .ok i := by
  simp [legalWords, exists_decode_eq_ok_iff]

/-- Each command has one word, so there are as many legal words as commands. -/
theorem card_legalWords : legalWords.card = 12689 := by
  have hrange : (legalWords : Set Word) = Set.range encode := by
    ext w
    simp [decode_eq_ok_iff_encode_eq]
  rw [← Set.ncard_coe_finset, hrange, Set.ncard_range_of_injective encode_injective, card_instr]

/-- Settles O3: two words of one command are that command's word, and the legal words are as many as the commands. -/
theorem decodingTotalUnambiguousCounted : Obligations.DecodingTotalUnambiguousCounted := by
  unfold Obligations.DecodingTotalUnambiguousCounted
  refine ⟨fun w => ?_, fun v w i hv hw => ?_, legalWords.toList, legalWords.nodup_toList, ?_, ?_⟩
  · cases decode w with
    | ok i => exact .inl ⟨i, rfl, fun j hj => (Except.ok.inj hj).symm⟩
    | error e => exact .inr ⟨e, rfl⟩
  · rw [← encode_of_decode_eq_ok hv, encode_of_decode_eq_ok hw]
  · rw [Finset.length_toList, card_legalWords]
  · simp

/-! ### Mask and match (30_encoding.md R44) -/

/-- The mask of a format: ones at the opcode, at w[31:18] and at every field the format does not use. -/
def Format.mask : Format → Word
  | .none => 0xFFFFFFFF | .d => 0xFFFFFF1F | .a => 0xFFFFF8FF | .da => 0xFFFFF81F | .daf => 0xFFFDF81F
  | .dab => 0xFFFFC01F | .dabc => 0xFFFE001F

/-- The fields `w AND mask` has, by the fields of `w`: those the format uses are cleared, the others kept. -/
def Format.fixedFields (fmt : Format) (x : Fields) : Fields where
  op := x.op
  d := if fmt.usesD then 0 else x.d
  a := if fmt.usesA then 0 else x.a
  b := if fmt.usesB then 0 else x.b
  c := if fmt.usesC then 0 else x.c
  f := !fmt.usesF && x.f
  zero := x.zero

/-- The fields of a conjunction of words are the conjunctions of their fields. -/
theorem fieldsOf_and (v w : Word) :
    fieldsOf (v &&& w) =
      { op := (fieldsOf v).op &&& (fieldsOf w).op
        d := (fieldsOf v).d &&& (fieldsOf w).d
        a := (fieldsOf v).a &&& (fieldsOf w).a
        b := (fieldsOf v).b &&& (fieldsOf w).b
        c := (fieldsOf v).c &&& (fieldsOf w).c
        f := (fieldsOf v).f && (fieldsOf w).f
        zero := (fieldsOf v).zero &&& (fieldsOf w).zero } := by
  have cut (lo n : Nat) : (v &&& w).toNat / 2 ^ lo % 2 ^ n =
      (v.toNat / 2 ^ lo % 2 ^ n) &&& (w.toNat / 2 ^ lo % 2 ^ n) := by
    rw [BitVec.toNat_and, Nat.and_div_two_pow, Nat.and_mod_two_pow]
  have bit (u : Word) : (u.toNat / 131072 % 2 == 1) = u.toNat.testBit 17 := by
    rw [Nat.testBit_eq_decide_div_mod_eq]; rfl
  simp only [fieldsOf, Fields.mk.injEq, Fin.ext_iff, Fin.and_val, Fin.val_ofNat, bit]
  exact ⟨by simpa using cut 0 5, cut 5 3, cut 8 3, cut 11 3, cut 14 3, Nat.testBit_and .., cut 18 14⟩

/-- All ones keep a field of `n` bits. -/
theorem and_allOnes (n : Nat) (x : Fin (2 ^ n)) : x &&& Fin.ofNat (2 ^ n) (2 ^ n - 1) = x := by
  simp [Fin.ext_iff, Nat.mod_eq_of_lt]

/-- `w AND mask` keeps the opcode, w[31:18] and the unused fields, and clears the used ones. -/
theorem fieldsOf_and_mask (fmt : Format) (w : Word) : fieldsOf (w &&& fmt.mask) = fmt.fixedFields (fieldsOf w) := by
  have hmask : fieldsOf fmt.mask =
      { op := 31, d := if fmt.usesD then 0 else 7, a := if fmt.usesA then 0 else 7, b := if fmt.usesB then 0 else 7,
        c := if fmt.usesC then 0 else 7, f := !fmt.usesF, zero := 16383 } := by
    cases fmt <;> rfl
  have hop (x : Fin 32) : x &&& 31 = x := and_allOnes 5 x
  have hzero (x : Fin 16384) : x &&& 16383 = x := and_allOnes 14 x
  have hreg (used : Bool) (x : Fin 8) : (x &&& if used then 0 else 7) = if used then 0 else x := by
    cases used
    · exact and_allOnes 3 x
    · simp [Fin.ext_iff]
  rw [fieldsOf_and, hmask]
  simp only [Format.fixedFields, hop, hzero, hreg, Bool.and_comm]

/-- `w AND mask = match`, in the fields of `w`: the opcode is the one matched and the fields are well-formed. -/
theorem and_mask_eq_iff (fmt : Format) (op : Fin 32) (w : Word) :
    w &&& fmt.mask = BitVec.ofNat 32 op ↔ (fieldsOf w).op = op ∧ (fieldsOf w).wellFormed fmt = true := by
  have hop : fieldsOf (BitVec.ofNat 32 op) = { Fields.blank with op := op } := by
    simpa [wordNumber, Fields.blank] using fieldsOf_wordNumber { Fields.blank with op := op }
  rw [← fieldsOf_injective.eq_iff, fieldsOf_and_mask, hop, Fields.wellFormed_iff]
  simp only [Format.fixedFields, Fields.blank, Fields.mk.injEq, ite_eq_left_iff, Bool.not_eq_true, Bool.and_eq_false_imp,
    Bool.not_eq_true', and_congr_right_iff]
  tauto

/-- The rows of opcode_table.json are the opcodes that have a format, in order, each with that format's mask. -/
theorem opcodeTable_eq :
    opcodeTable.map (fun r => (r.pattern, r.mask)) =
      (List.finRange 32).filterMap fun op : Fin 32 => (opcodeRow op).map fun row => (BitVec.ofNat 32 op, row.1.mask) := rfl

/-- A property of match and mask is found in the table exactly if it is found among the opcodes that have a format. -/
theorem exists_tableRow_iff (P : Word → Word → Prop) :
    (∃ r ∈ opcodeTable, P r.pattern r.mask) ↔
      ∃ (op : Fin 32) (fmt : Format) (build : Fields → Instr),
        opcodeRow op = some (fmt, build) ∧ P (BitVec.ofNat 32 op) fmt.mask := by
  calc (∃ r ∈ opcodeTable, P r.pattern r.mask)
      ↔ ∃ q ∈ opcodeTable.map fun r => (r.pattern, r.mask), P q.1 q.2 := by simp
    _ ↔ _ := by
      rw [opcodeTable_eq]
      constructor
      · simp only [List.mem_filterMap, Option.map_eq_some_iff]
        rintro ⟨-, ⟨op, -, ⟨fmt, build⟩, hrow, rfl⟩, hP⟩
        exact ⟨op, fmt, build, hrow, hP⟩
      · rintro ⟨op, fmt, build, hrow, hP⟩
        exact ⟨_, List.mem_filterMap.mpr ⟨op, List.mem_finRange op, by rw [hrow]; rfl⟩, hP⟩

/-- Legality by mask and match is legality by fields. -/
theorem legalByTable_iff_legal (w : Word) : legalByTable w = true ↔ legal w = true := by
  have htable : legalByTable w = true ↔ ∃ r ∈ opcodeTable, w &&& r.mask = r.pattern := by simp [legalByTable]
  rw [htable, exists_tableRow_iff fun pattern mask => w &&& mask = pattern, legal_iff]
  simp only [and_mask_eq_iff]
  constructor
  · rintro ⟨_, fmt, build, hrow, rfl, hwf⟩
    exact ⟨fmt, build, hrow, hwf⟩
  · rintro ⟨fmt, build, hrow, hwf⟩
    exact ⟨_, fmt, build, hrow, rfl, hwf⟩

/-- Settles O4: fixing the opcode, w[31:18] and the unused fields is what `w AND mask = match` does, for each row's format. -/
theorem legalByFieldsIffByMask : Obligations.LegalByFieldsIffByMask := by
  unfold Obligations.LegalByFieldsIffByMask
  refine ⟨fun w => ⟨exists_decode_eq_ok_iff w, (legalByTable_iff_legal w).symm, ?_⟩, fun r hr => ?_⟩
  · have hw : w.toNat / 262144 % 16384 = w.toNat / 262144 := by omega
    have hf : (w.toNat / 131072 % 2 == 1) = false ↔ w.toNat / 131072 % 2 = 0 := by simp
    simp only [legal_iff, Fields.wellFormed_iff, fieldsOf, Fin.ext_iff, Fin.val_ofNat, Fin.val_zero, hw, hf]
  · obtain ⟨op, fmt, build, hrow, hpattern, hmask⟩ :=
      (exists_tableRow_iff fun pattern mask => r.pattern = pattern ∧ r.mask = mask).mp ⟨r, hr, rfl, rfl⟩
    have hop : r.pattern.toNat = op := by rw [hpattern, BitVec.toNat_ofNat]; omega
    exact ⟨fmt, build, hop ▸ hrow, hmask⟩

end Sys2Proof

namespace Sys2Proof.Machine

/-! ### Illegal words on the command port (30_encoding.md R45, 60_exceptions.md R143) -/

/-- A command word that is the host's next move is run on the state without it. -/
theorem step_command {s : State} {w : Word} {rest : List HostMove} (h : s.inputs = .command w :: rest) :
    step s = command exec w { s with inputs := rest } := by
  simp [step, engineStep, perform, h]

/-- A word that is no legal command raises IllegalCommand. -/
theorem command_of_not_legal (ex : Instr → State → Out) {w : Word} (h : legal w = false) (s : State) :
    command ex w s = .next (s.failed .illegalCommand .none) := by
  rcases command_cases ex w s with ⟨i, hi, -⟩ | ⟨e, -, hraise⟩
  · exact absurd ((exists_decode_eq_ok_iff w).mp ⟨i, hi⟩) (by simp [h])
  · exact hraise

/-- Only the opcodes 1 to 23 have a format. -/
theorem opcode_bounds_of_row {op : Nat} {row : Format × (Fields → Instr)} (h : opcodeRow op = some row) :
    1 ≤ op ∧ op ≤ 23 := by
  unfold opcodeRow at h
  split at h <;> simp_all

/-- Settles O5: each of the three reasons denies one clause of legality, and an illegal word only raises the error. -/
theorem illegalWordRaisesIllegalCommand : Obligations.IllegalWordRaisesIllegalCommand := by
  unfold Obligations.IllegalWordRaisesIllegalCommand
  intro s w rest hnext hill
  rw [step_command hnext]
  refine command_of_not_legal exec (Bool.eq_false_iff.mpr fun hlegal => ?_) _
  obtain ⟨hlegalFields, -⟩ := legalByFieldsIffByMask
  obtain ⟨-, htable, hfields⟩ := hlegalFields w
  obtain ⟨fmt, build, hrow, hzero, -⟩ := hfields.mp hlegal
  have hop := opcode_bounds_of_row hrow
  rcases hill with h | h | h | h
  · omega
  · omega
  · exact h hzero
  · simp [htable.mp hlegal] at h

end Sys2Proof.Machine

/-! Proofs of the family 40_convert.md. A vector is known by its length and its value, and by its bits; what each conversion
gives is said once in both forms, and the statements about the machine and the laws of R68 follow from these. -/

namespace Sys2Proof

/-- A command's word is the number of its fields: they fit 32 bits (30_encoding.md R40). -/
theorem toNat_encode (i : Instr) : (encode i).toNat = wordNumber (encodeFields i) := by
  rw [encode, BitVec.toNat_ofNat, Nat.mod_eq_of_lt]
  have hf := (encodeFields i).f.toNat_le
  unfold wordNumber
  omega

end Sys2Proof

namespace Sys2Proof.Machine

/-! ### The shared ends at the default parameters, as whole next states -/

theorem retireV_ok_wroteV (d : VReg) (x : Bits) (s : State) :
    retireV Config.params d (.ok x) s = .next (s.wroteV d x) := rfl

theorem retireV_error_failed (d : VReg) (c : Cause) (s : State) :
    retireV Config.params d (.error c) s = .next (s.failed .domainError c) := rfl

@[simp] theorem State.readB_wroteB (s : State) (ys : List Byte) : (s.wroteB ys).readB = ys := Memory.bytes_ofBytes ys

/-! ### Bits and value of a vector (00_scope.md section 5) -/

/-- Bit `i` of a vector's value is the vector's bit `i`, 0 where there is none. -/
theorem testBit_val (x : Bits) (i : Nat) : (val x).testBit i = x[i]?.getD false := by
  induction x generalizing i with
  | nil => simp
  | cons b bs ih =>
    have hdiv : (b.toNat + 2 * val bs) / 2 = val bs := by have := b.toNat_le; omega
    cases i with
    | zero => cases b <;> simp [Nat.testBit_zero, Nat.add_mod]
    | succ i => rw [val_cons, Nat.testBit_succ, hdiv, ih, List.getElem?_cons_succ]

/-- The value is the sum of `2^i` over the set bits (40_convert.md R62). -/
theorem val_eq_sum (x : Bits) : val x = ∑ i ∈ Finset.range x.length, if x[i]? = some true then 2 ^ i else 0 := by
  induction x with
  | nil => simp
  | cons b bs ih =>
    rw [val_cons, ih, List.length_cons, Finset.sum_range_succ', Finset.mul_sum, add_comm]
    congr 1
    · refine Finset.sum_congr rfl fun i _ => ?_
      rw [List.getElem?_cons_succ, mul_ite, mul_zero, pow_succ']
    · cases b <;> simp

theorem getElem?_bitsOf {v n i : Nat} (h : i < n) : (bitsOf v n)[i]? = some (v.testBit i) := by
  simp [bitsOf, h]

theorem val_bitsOf (v n : Nat) : val (bitsOf v n) = v % 2 ^ n := by
  induction n with
  | zero => simp [bitsOf, Nat.mod_one]
  | succ n ih =>
    have hsnoc : bitsOf v (n + 1) = bitsOf v n ++ [v.testBit n] := by simp [bitsOf, List.range_succ]
    rw [hsnoc, val_append, ih, length_bitsOf, Nat.mod_pow_succ, val_cons, val_nil, Nat.toNat_testBit]
    ring

theorem val_bitsOf_of_lt {v n : Nat} (h : v < 2 ^ n) : val (bitsOf v n) = v := by
  rw [val_bitsOf, Nat.mod_eq_of_lt h]

/-! ### `blen` and minimal vectors -/

/-- `blen v` is the least length that holds `v`. -/
theorem blen_le_iff (v n : Nat) : blen v ≤ n ↔ v < 2 ^ n := by
  unfold blen
  split
  case isTrue h => simp [h]
  case isFalse h => rw [Nat.succ_le_iff, Nat.log2_lt h]

theorem blen_val_le (x : Bits) : blen (val x) ≤ x.length := (blen_le_iff _ _).mpr (val_lt x)

theorem blen_eq_zero_iff (v : Nat) : blen v = 0 ↔ v = 0 := by
  rw [← Nat.le_zero, blen_le_iff, pow_zero, Nat.lt_one_iff]

/-- A top bit 0 adds nothing to the value. -/
theorem val_append_false (x : Bits) : val (x ++ [false]) = val x := by simp [val_append]

/-- With a top bit 1 the value needs the whole length. -/
theorem blen_val_append_true (x : Bits) : blen (val (x ++ [true])) = x.length + 1 := by
  have hle : blen (val (x ++ [true])) ≤ x.length + 1 := by simpa using blen_val_le (x ++ [true])
  have hgt : ¬ blen (val (x ++ [true])) ≤ x.length := by simp [blen_le_iff, val_append]
  omega

/-- A vector is minimal (00_scope.md R5) exactly when it has the length `bitLength` of its value. -/
theorem minimal_iff_length (x : Bits) : minimal x = true ↔ x.length = bitLength (val x) := by
  unfold bitLength
  induction x using List.reverseRecOn with
  | nil => simp [minimal, blen]
  | append_singleton xs b =>
    cases b with
    | true => simp [minimal, blen_val_append_true]
    | false =>
      have hle := blen_val_le xs
      rw [val_append_false, List.length_append, List.length_singleton]
      have hmin : minimal (xs ++ [false]) = true ↔ xs.length = 0 := by simp [minimal]
      rw [hmin]
      omega

/-! ### `fromInteger` (40_convert.md R60) -/

/-- The length of `fromInteger v f`: minimal, or the fewest whole bytes, at least one. -/
def fromIntegerLength (v : Nat) (f : Bool) : Nat := if f then bitLength v else 8 * max 1 (byteCount (blen v))

theorem fromInteger_natCast (v : Nat) (f : Bool) : fromInteger v f = .ok (bitsOf v (fromIntegerLength v f)) := by
  have hv : ¬ (v : Int) < 0 := by omega
  simp [fromInteger, hv, fromIntegerLength, bitLength]

theorem fromInteger_of_neg {v : Int} (h : v < 0) (f : Bool) : fromInteger v f = .error .negInteger := by
  simp [fromInteger, h]

/-- The length of `fromInteger v f` holds `v`. -/
theorem lt_two_pow_fromIntegerLength (v : Nat) (f : Bool) : v < 2 ^ fromIntegerLength v f := by
  rw [← blen_le_iff]
  unfold fromIntegerLength bitLength byteCount
  split <;> omega

/-- The vector of `fromInteger v f` has the value `v`. -/
theorem val_bitsOf_fromIntegerLength (v : Nat) (f : Bool) : val (bitsOf v (fromIntegerLength v f)) = v :=
  val_bitsOf_of_lt (lt_two_pow_fromIntegerLength v f)

theorem minimal_bitsOf_bitLength (v : Nat) : minimal (bitsOf v (bitLength v)) = true := by
  have hval : val (bitsOf v (bitLength v)) = v := val_bitsOf_fromIntegerLength v true
  rw [minimal_iff_length, length_bitsOf, hval]

theorem exec_fromint (d : VReg) (a : SReg) (f : Bool) (s : State) :
    exec (.fromint d a f) s = retireV Config.params d (fromInteger (s.readS a) f) s := rfl

/-- Settles O24: the length holds `s[a]`, so the vector has its value, and the minimal length is `bitLength`. -/
theorem fromintWritesBinaryDigits : Obligations.FromintWritesBinaryDigits := by
  unfold Obligations.FromintWritesBinaryDigits
  intro s d a f
  refine ⟨by simp [toNat_encode, wordNumber, encodeFields, Fields.blank], fun v hv => ?_, fun hneg => ?_⟩
  · refine ⟨bitsOf v (fromIntegerLength v f), ?_, length_bitsOf _ _, fun i hi => ?_, ?_, ?_⟩
    · rw [exec_fromint, hv, fromInteger_natCast, retireV_ok_wroteV]
    · exact getElem?_bitsOf (by simpa using hi)
    · exact val_bitsOf_fromIntegerLength v f
    · rintro rfl
      exact minimal_bitsOf_bitLength v
  · rw [exec_fromint, fromInteger_of_neg hneg, retireV_error_failed]

theorem exec_toint (d : SReg) (a : VReg) (s : State) : exec (.toint d a) s = .next (s.wroteS d (val (s.readV a))) := rfl

/-- Settles O25: `toInteger` is the value, and the value is the weighted sum. -/
theorem tointWritesWeightedSum : Obligations.TointWritesWeightedSum := by
  unfold Obligations.TointWritesWeightedSum
  intro s d a
  refine ⟨by simp [toNat_encode, wordNumber, encodeFields, Fields.blank], ?_⟩
  rw [exec_toint, val_eq_sum]

/-! ### Packing into bytes and unpacking (40_convert.md R64, R66) -/

/-- Packing, without the case of the zero-length vector: at least one byte is made. -/
theorem toBytes_eq_map (b : Bits) : toBytes b = (List.range (max 1 (byteCount b.length))).map (packedByte b) := by
  unfold toBytes
  split
  case isTrue h =>
    rw [List.length_eq_zero_iff.mp h]
    rfl
  case isFalse h =>
    have hpos : 1 ≤ byteCount b.length := by unfold byteCount; omega
    rw [max_eq_right hpos]

theorem getElem?_toBytes (b : Bits) (j : Nat) :
    (toBytes b)[j]? = if j < max 1 (byteCount b.length) then some (packedByte b j) else none := by
  rw [toBytes_eq_map, List.getElem?_map]
  split
  case isTrue h => rw [List.getElem?_range h, Option.map_some]
  case isFalse h => simpa using h

@[simp] theorem length_toBytes (b : Bits) : (toBytes b).length = max 1 (byteCount b.length) := by simp [toBytes_eq_map]

/-- Bit `i` of byte `j` of the packing is vector bit `8*j + i`, 0 where there is none. -/
theorem getLsbD_packedByte (b : Bits) (j : Nat) {i : Nat} (hi : i < 8) :
    (packedByte b j).getLsbD i = b[8 * j + i]?.getD false := by
  rw [packedByte, BitVec.getLsbD_ofNat, testBit_val, List.getElem?_take_of_lt hi, List.getElem?_drop]
  simp [hi]

/-- Unpacking starts with the eight binary digits of the first byte. -/
theorem fromBytes_cons (y : Byte) (ys : List Byte) : fromBytes (y :: ys) = bitsOf y.toNat 8 ++ fromBytes ys := rfl

@[simp] theorem length_fromBytes (ys : List Byte) : (fromBytes ys).length = 8 * ys.length := by
  induction ys with
  | nil => rfl
  | cons y ys ih => rw [fromBytes_cons, List.length_append, length_bitsOf, ih, List.length_cons]; omega

/-- The value of the unpacked bytes is their little-endian integer (20_memory.md R32). -/
theorem val_fromBytes (ys : List Byte) : val (fromBytes ys) = Nat.ofDigits 256 (ys.map BitVec.toNat) := by
  induction ys with
  | nil => rfl
  | cons y ys ih =>
    rw [fromBytes_cons, val_append, val_bitsOf_of_lt y.isLt, ih, length_bitsOf, List.map_cons, Nat.ofDigits_cons,
      mul_comm]
    rfl

/-- Bit `8*j + i` of the unpacked bytes is bit `i` of byte `j`. -/
theorem getElem?_fromBytes (ys : List Byte) (j : Nat) {i : Nat} (hi : i < 8) :
    (fromBytes ys)[8 * j + i]? = ys[j]?.map (·.getLsbD i) := by
  induction ys generalizing j with
  | nil => rfl
  | cons y ys ih =>
    rw [fromBytes_cons]
    cases j with
    | zero =>
      rw [List.getElem?_append_left (by simpa using hi), getElem?_bitsOf (by omega)]
      simp [BitVec.getLsbD]
    | succ j =>
      have hsub : 8 * (j + 1) + i - 8 = 8 * j + i := by omega
      rw [List.getElem?_append_right (by rw [length_bitsOf]; omega), length_bitsOf, hsub, ih, List.getElem?_cons_succ]

/-- Unpacking a packed vector fills its last byte up with zeros (40_convert.md R66). -/
theorem fromBytes_toBytes (b : Bits) :
    fromBytes (toBytes b) = b ++ zeros (8 * max 1 (byteCount b.length) - b.length) := by
  refine List.ext_getElem? fun k => ?_
  have hlt : k % 8 < 8 := Nat.mod_lt _ (by decide)
  have hfit : b.length ≤ 8 * max 1 (byteCount b.length) := by unfold byteCount; omega
  have hbit := getElem?_fromBytes (toBytes b) (k / 8) hlt
  rw [Nat.div_add_mod] at hbit
  rw [hbit, getElem?_toBytes, List.getElem?_append, zeros, List.getElem?_replicate]
  by_cases hk : k / 8 < max 1 (byteCount b.length)
  · rw [if_pos hk, Option.map_some, getLsbD_packedByte b _ hlt, Nat.div_add_mod]
    by_cases hkb : k < b.length
    · simp [hkb]
    · have hpad : k - b.length < 8 * max 1 (byteCount b.length) - b.length := by omega
      simp [hkb, hpad]
  · have hkb : ¬ k < b.length := by omega
    have hpad : ¬ k - b.length < 8 * max 1 (byteCount b.length) - b.length := by omega
    rw [if_neg hk, if_neg hkb, if_neg hpad, Option.map_none]

/-- The packed bytes have the vector's value (40_convert.md R64). -/
theorem ofDigits_toBytes (b : Bits) : Nat.ofDigits 256 ((toBytes b).map BitVec.toNat) = val b := by
  simp [← val_fromBytes, fromBytes_toBytes, val_append]

/-! ### The buffer written whole (20_memory.md R30) -/

/-- Address `j` of a buffer written whole reads as byte `j`; no other address exists. -/
theorem Memory.read_ofBytes (ys : List Byte) (j : Nat) : (Memory.ofBytes ys).read j = ys[j]? := by
  have hread (m : Memory) : m.read j = m.lookup j := Option.or_none
  induction ys using List.reverseRecOn with
  | nil => rfl
  | append_singleton ys y ih =>
    have hsnoc : Memory.ofBytes (ys ++ [y]) = Memory.ofBytes ys ++ [(ys.length, y)] := by
      simp [Memory.ofBytes, List.range_succ, List.zip_append]
    rw [hread] at ih ⊢
    rw [hsnoc, List.lookup_append, ih]
    rcases lt_trichotomy j ys.length with h | rfl | h
    · simp [h, List.getElem?_append_left]
    · simp
    · have hne : (j == ys.length) = false := by simpa using h.ne'
      have hpast : (ys ++ [y]).length ≤ j := by simpa using h
      simp [List.lookup_cons, hne, h.le, List.getElem?_eq_none hpast]

theorem exec_tobytes (a : VReg) (s : State) : exec (.tobytes a) s = .next (s.wroteB (toBytes (s.readV a))) := rfl

theorem exec_frombytes (d : VReg) (s : State) : exec (.frombytes d) s = .next (s.wroteV d (fromBytes s.readB)) := rfl

/-- Settles O26: each byte by its bits, the bytes' integer by unpacking them again. -/
theorem tobytesPacksLittleEndian : Obligations.TobytesPacksLittleEndian := by
  unfold Obligations.TobytesPacksLittleEndian
  intro s a
  refine ⟨by simp [toNat_encode, wordNumber, encodeFields, Fields.blank], toBytes (s.readV a), exec_tobytes a s,
    length_toBytes _, fun j y hy i hi => ?_, ofDigits_toBytes _, Memory.wf_ofBytes _, Memory.read_ofBytes _⟩
  rw [getElem?_toBytes] at hy
  split at hy <;> cases hy
  exact getLsbD_packedByte _ _ hi

/-- Settles O27: unpacking by its bits and its value; after packing it gives the vector and zeros above it. -/
theorem frombytesUnpacksBuffer : Obligations.FrombytesUnpacksBuffer := by
  unfold Obligations.FrombytesUnpacksBuffer
  refine ⟨fun s d => ⟨by simp [toNat_encode, wordNumber, encodeFields, Fields.blank], fromBytes s.readB,
    exec_frombytes d s, length_fromBytes _, fun j y hy i hi => ?_, val_fromBytes _⟩, fun s a d => ?_⟩
  · rw [getElem?_fromBytes _ _ hi, hy, Option.map_some]
  · refine ⟨_, fromBytes (toBytes (s.readV a)), exec_tobytes a s, ?_, ?_, ?_, ?_⟩
    · rw [exec_frombytes, State.readB_wroteB]
    · rw [length_fromBytes, length_toBytes, byteCount]
    · rw [val_fromBytes, ofDigits_toBytes]
    · rw [fromBytes_toBytes, List.take_left]

/-! ### `trimEnd` (43_select.md R94), from the top bit down -/

theorem trimLength_le (b : Bits) (v : Bool) (m : Nat) : trimLength b v m ≤ m := by
  induction m with
  | zero => exact Nat.le_refl 0
  | succ m ih => unfold trimLength; split <;> omega

/-- The loop looks at the bits below its start alone. -/
theorem trimLength_append (x y : Bits) (v : Bool) {m : Nat} (h : m ≤ x.length) :
    trimLength (x ++ y) v m = trimLength x v m := by
  induction m with
  | zero => rfl
  | succ m ih => rw [trimLength, trimLength, List.getElem?_append_left (by omega), ih (by omega)]

/-- A top bit equal to `v` is trimmed and the trimming goes on; any other top bit ends it. -/
theorem trimEnd_append_singleton (x : Bits) (b v : Bool) :
    trimEnd (x ++ [b]) v = if b = v then trimEnd x v else x ++ [b] := by
  have htop : trimLength (x ++ [b]) v (x ++ [b]).length = if b = v then trimLength x v x.length else x.length + 1 := by
    simp [trimLength, trimLength_append]
  rw [trimEnd, htop]
  split
  · rw [List.take_append_of_le_length (trimLength_le x v _), trimEnd]
  · rw [List.take_of_length_le (by simp)]

@[simp] theorem val_trimEnd_false (x : Bits) : val (trimEnd x false) = val x := by
  induction x using List.reverseRecOn with
  | nil => rfl
  | append_singleton x b ih => cases b <;> simp [trimEnd_append_singleton, ih, val_append_false]

/-- Trimming zeros leaves exactly the bits the value needs. -/
@[simp] theorem length_trimEnd_false (x : Bits) : (trimEnd x false).length = blen (val x) := by
  induction x using List.reverseRecOn with
  | nil => rfl
  | append_singleton x b ih => cases b <;> simp [trimEnd_append_singleton, ih, val_append_false, blen_val_append_true]

/-! ### The laws of 40_convert.md R68 -/

/-- The minimal vector of a vector's value is the vector itself exactly if that is minimal: both have its value. -/
theorem bitsOf_bitLength_eq_iff_minimal (b : Bits) : bitsOf (val b) (bitLength (val b)) = b ↔ minimal b = true := by
  constructor
  · intro h
    rw [← h]
    exact minimal_bitsOf_bitLength _
  · intro h
    have hlen := (minimal_iff_length b).mp h
    exact eq_of_length_val _ _ (by rw [length_bitsOf, hlen]) (val_bitsOf_fromIntegerLength _ true)

/-- The minimal vector and the vector without its high zeros have one value; their lengths differ for 0 alone. -/
theorem bitsOf_bitLength_eq_trimEnd_iff (b : Bits) :
    bitsOf (val b) (bitLength (val b)) = trimEnd b false ↔ val b ≠ 0 := by
  have hlen : bitLength (val b) = blen (val b) ↔ val b ≠ 0 := by
    rw [← not_iff_not, not_not, ← blen_eq_zero_iff, bitLength]
    omega
  rw [← hlen]
  constructor
  · intro h
    simpa using congrArg List.length h
  · intro h
    exact eq_of_length_val _ _ (by simp [h]) (by rw [val_trimEnd_false]; exact val_bitsOf_fromIntegerLength _ true)

/-- A non-empty byte sequence of value `v` has at least the bytes that the bits of `v` fill, and at least one. -/
theorem byteCount_blen_le_length {v : Nat} {zs : List Byte} (hne : zs ≠ [])
    (hv : Nat.ofDigits 256 (zs.map BitVec.toNat) = v) : max 1 (byteCount (blen v)) ≤ zs.length := by
  have hpos : 0 < zs.length := List.length_pos_iff.mpr hne
  have hbits : blen v ≤ 8 * zs.length := by simpa [val_fromBytes, hv] using blen_val_le (fromBytes zs)
  unfold byteCount
  omega

/-- The whole-byte form of `v` is the unpacking of the packed bits of `v`. -/
theorem bitsOf_fromIntegerLength_false (v : Nat) :
    bitsOf v (fromIntegerLength v false) = fromBytes (toBytes (bitsOf v (blen v))) := by
  apply eq_of_length_val
  · simp [fromIntegerLength]
  · rw [val_bitsOf_fromIntegerLength, val_fromBytes, ofDigits_toBytes, val_bitsOf_of_lt ((blen_le_iff v _).mp le_rfl)]

/-- Settles O53: vectors of one value are compared by their lengths, byte sequences by the bits of the value. -/
theorem conversionLaws : Obligations.ConversionLaws := by
  unfold Obligations.ConversionLaws
  refine ⟨fun v f => ?_, fun b => ?_, fun v => ?_⟩
  · exact ⟨_, fromInteger_natCast v f, congrArg Nat.cast (val_bitsOf_fromIntegerLength v f)⟩
  · refine ⟨_, fromInteger_natCast (val b) true, minimal_bitsOf_bitLength _, val_bitsOf_fromIntegerLength _ true,
      bitsOf_bitLength_eq_iff_minimal b, bitsOf_bitLength_eq_trimEnd_iff b, fun hzero => ⟨?_, ?_⟩⟩
    · rw [hzero]
      rfl
    · rw [← List.length_eq_zero_iff, length_trimEnd_false, blen_eq_zero_iff, hzero]
  · have hval : val (bitsOf v (blen v)) = v := val_bitsOf_of_lt ((blen_le_iff v _).mp le_rfl)
    refine ⟨toBytes (bitsOf v (blen v)), ?_, ?_, fun zs hne hv => ?_, ?_⟩
    · rw [← List.length_pos_iff, length_toBytes]
      omega
    · rw [ofDigits_toBytes, hval]
    · rw [length_toBytes, length_bitsOf]
      exact byteCount_blen_le_length hne hv
    · rw [fromInteger_natCast, bitsOf_fromIntegerLength_false]

end Sys2Proof.Machine

/-! Proofs of the family 41_incdec.md. A carry and a borrow are the same ripple: a low run of equal bits is inverted, up to and
including the first bit that differs. What each source function does is said once, in bits and in value and length; the
commands end in `retireV` with that result, and past the value a subtraction goes on from a vector of zeros. -/

namespace Sys2Proof.Machine

/-! ### The end of a command at unbounded capacities, and what a register then reads as -/

theorem retireV_unbounded_ok (z : DecZero) (d : VReg) (x : Bits) (s : State) :
    retireV (.unbounded z) d (.ok x) s = .next (s.wroteV d x) := rfl

theorem retireV_unbounded_error (z : DecZero) (d : VReg) (c : Cause) (s : State) :
    retireV (.unbounded z) d (.error c) s = .next (s.failed .domainError c) := rfl

/-- The destination reads as the value written. -/
@[simp] theorem State.readV_wroteV_same (s : State) (d : VReg) (x : Bits) : (s.wroteV d x).readV d = x :=
  (State.readV_writeV s d d x).trans (if_pos rfl)

/-- The default engine is the unbounded one with DEC_ZERO = Error. -/
theorem exec_eq_execWith_unbounded (i : Instr) (s : State) : exec i s = execWith (.unbounded .error) i s :=
  (execWith_default i s).symm

/-! ### A low run of equal bits and the first bit that differs -/

/-- If bit `j` is `c` and the bits below it are all `b`, the vector is that run, bit `j`, and some bits above. -/
theorem exists_eq_replicate_append_cons {x : Bits} {j : Nat} {b c : Bool} (hj : x[j]? = some c)
    (hlow : ∀ i < j, x[i]? = some b) : ∃ ys, x = List.replicate j b ++ c :: ys := by
  obtain ⟨hlt, hget⟩ := List.getElem?_eq_some_iff.mp hj
  have hrun : x.take j = List.replicate j b := by
    refine List.ext_getElem? fun i => ?_
    rw [List.getElem?_take, List.getElem?_replicate]
    split
    case isTrue h => exact hlow i h
    case isFalse => rfl
  refine ⟨x.drop (j + 1), ?_⟩
  rw [← hrun, ← hget, ← List.drop_eq_getElem_cons hlt, List.take_append_drop]

/-- The bits of such a vector: below, at and above `j`. -/
theorem getElem?_replicate_append_cons (j : Nat) (b c : Bool) (ys : Bits) :
    (∀ i < j, (List.replicate j b ++ c :: ys)[i]? = some b) ∧ (List.replicate j b ++ c :: ys)[j]? = some c ∧
      ∀ i : Nat, j < i → (List.replicate j b ++ c :: ys)[i]? = ys[i - (j + 1)]? := by
  refine ⟨fun i hi => ?_, by simp, fun i hi => ?_⟩
  · simp [List.getElem?_append_left, hi]
  · have hsub : i - j = i - (j + 1) + 1 := by omega
    rw [List.getElem?_append_right (by simpa using hi.le), List.length_replicate, hsub, List.getElem?_cons_succ]

/-! ### `increment` (41_incdec.md R70) -/

/-- The carry passes a low run of ones and stops at the first 0. -/
theorem increment_ones_append_false (j : Nat) (ys : Bits) :
    increment (ones j ++ false :: ys) = zeros j ++ true :: ys := by
  induction j with
  | zero => rfl
  | succ j ih => exact congrArg (false :: ·) ih

/-- Past the last bit the carry becomes a new top bit. -/
theorem increment_ones (n : Nat) : increment (ones n) = zeros n ++ [true] := by
  induction n with
  | zero => rfl
  | succ n ih => exact congrArg (false :: ·) ih

/-- At the least 0 bit `j`: the bits below become 0, bit `j` becomes 1, the bits above and the length stay. -/
theorem increment_ripples {x : Bits} {j : Nat} (hj : x[j]? = some false) (hlow : ∀ i < j, x[i]? = some true) :
    (increment x).length = x.length ∧ (∀ i < j, (increment x)[i]? = some false) ∧ (increment x)[j]? = some true ∧
      ∀ i : Nat, j < i → (increment x)[i]? = x[i]? := by
  obtain ⟨ys, rfl⟩ := exists_eq_replicate_append_cons hj hlow
  obtain ⟨-, -, habove⟩ := getElem?_replicate_append_cons j true false ys
  obtain ⟨hbelow', hat', habove'⟩ := getElem?_replicate_append_cons j false true ys
  have hinc := increment_ones_append_false j ys
  rw [ones, zeros] at hinc
  rw [hinc]
  exact ⟨by simp, hbelow', hat', fun i hi => (habove' i hi).trans (habove i hi).symm⟩

@[simp] theorem val_increment (x : Bits) : val (increment x) = val x + 1 := by
  induction x with
  | nil => rfl
  | cons b bs ih =>
    cases b
    · simp [increment, add_comm]
    · simp [increment, ih]
      ring

theorem blen_two_mul {v : Nat} (h : v ≠ 0) : blen (2 * v) = blen v + 1 := by
  simp [blen, h, Nat.log2_two_mul]

/-- `increment` keeps the length unless the new value needs one bit more. -/
theorem length_increment (x : Bits) : (increment x).length = max x.length (blen (val x + 1)) := by
  induction x with
  | nil => rfl
  | cons b bs ih =>
    cases b with
    | false =>
      have hfits := blen_val_le (true :: bs)
      have hval : val (false :: bs) + 1 = val (true :: bs) := by simp [add_comm]
      rw [hval]
      exact (max_eq_left hfits).symm
    | true =>
      have hval : val (true :: bs) + 1 = 2 * (val bs + 1) := by simp; ring
      rw [hval, blen_two_mul (Nat.succ_ne_zero _), increment, List.length_cons, ih, List.length_cons,
        Nat.add_max_add_right]

/-- `increment` grows a vector exactly if it has no 0 bit. -/
theorem length_increment_eq_succ_iff (x : Bits) :
    (increment x).length = x.length + 1 ↔ ∀ b ∈ x, b = true := by
  induction x with
  | nil => simp [increment]
  | cons b bs ih => cases b <;> simp [increment, ih]

/-! ### `addConstant` (41_incdec.md R75) -/

theorem addConstant_eq_iterate (x : Bits) (k : Nat) : addConstant x k = increment^[k] x := by
  induction k with
  | zero => rfl
  | succ k ih => rw [addConstant, ih, Function.iterate_succ_apply']

@[simp] theorem val_addConstant (x : Bits) (k : Nat) : val (addConstant x k) = val x + k := by
  induction k with
  | zero => rfl
  | succ k ih => rw [addConstant, val_increment, ih, add_assoc]

/-- A greater value does not need fewer bits. -/
theorem blen_mono {v w : Nat} (h : v ≤ w) : blen v ≤ blen w :=
  (blen_le_iff v _).mpr (h.trans_lt ((blen_le_iff w _).mp le_rfl))

theorem length_addConstant (x : Bits) (k : Nat) : (addConstant x k).length = max x.length (blen (val x + k)) := by
  induction k with
  | zero => exact (max_eq_left (blen_val_le x)).symm
  | succ k ih =>
    rw [addConstant, length_increment, ih, val_addConstant, add_assoc, max_assoc,
      max_eq_right (blen_mono (Nat.add_le_add_left k.le_succ (val x)))]

/-! ### `decrement` (41_incdec.md R72, R73) -/

/-- The borrow passes a low run of zeros and stops at the first 1. -/
theorem borrow_zeros_append_true (j : Nat) (ys : Bits) : borrow (zeros j ++ true :: ys) = ones j ++ false :: ys := by
  induction j with
  | zero => rfl
  | succ j ih => exact congrArg (true :: ·) ih

/-- At the least 1 bit `j`: the bits below become 1, bit `j` becomes 0, the bits above stay. -/
theorem borrow_ripples {x : Bits} {j : Nat} (hj : x[j]? = some true) (hlow : ∀ i < j, x[i]? = some false) :
    (∀ i < j, (borrow x)[i]? = some true) ∧ (borrow x)[j]? = some false ∧
      ∀ i : Nat, j < i → (borrow x)[i]? = x[i]? := by
  obtain ⟨ys, rfl⟩ := exists_eq_replicate_append_cons hj hlow
  obtain ⟨-, -, habove⟩ := getElem?_replicate_append_cons j false true ys
  obtain ⟨hbelow', hat', habove'⟩ := getElem?_replicate_append_cons j true false ys
  have hborrow := borrow_zeros_append_true j ys
  rw [ones, zeros] at hborrow
  rw [hborrow]
  exact ⟨hbelow', hat', fun i hi => (habove' i hi).trans (habove i hi).symm⟩

@[simp] theorem length_borrow (x : Bits) : (borrow x).length = x.length := by
  induction x with
  | nil => rfl
  | cons b bs ih => cases b <;> simp [borrow, ih]

/-- The borrow lowers the value by one. -/
theorem val_borrow {x : Bits} (h : true ∈ x) : val (borrow x) + 1 = val x := by
  induction x with
  | nil => cases h
  | cons b bs ih =>
    cases b with
    | false =>
      have hbs := ih (by simpa using h)
      simp only [borrow, val_cons, Bool.toNat_true, Bool.toNat_false]
      omega
    | true => simp [borrow, add_comm]

/-- A vector has a 1 bit exactly if its value is not 0. -/
theorem true_mem_iff_val_pos (x : Bits) : true ∈ x ↔ 0 < val x := by
  induction x with
  | nil => simp
  | cons b bs ih => cases b <;> simp [ih]

/-- With a 1 bit both settings of DEC_ZERO decrement. -/
theorem decrement_of_mem (z : DecZero) {x : Bits} (h : true ∈ x) : decrement z x = .ok (borrow x) := if_pos h

/-- With no 1 bit the default raises DEC_ZERO, and so does either setting for the zero-length vector. -/
theorem decrement_eq_error {z : DecZero} {x : Bits} (h : true ∉ x) (hz : z = .error ∨ x.length = 0) :
    decrement z x = .error .decZero := by
  cases z with
  | error => simp [decrement, h]
  | shrink => simpa [decrement, h] using hz

/-- With no 1 bit `Shrink` gives all ones, one bit shorter. -/
theorem decrement_shrink {x : Bits} (h : true ∉ x) (hlen : 1 ≤ x.length) :
    decrement .shrink x = .ok (ones (x.length - 1)) := by
  have hne : x ≠ [] := List.length_pos_iff.mp hlen
  simp [decrement, h, hne]

/-! ### `subtractConstant` (41_incdec.md R77) -/

/-- Decrements one after the other: `j` of them, then `k` more. -/
theorem subtractConstant_add (z : DecZero) (x : Bits) (j k : Nat) :
    subtractConstant z x (j + k) = (subtractConstant z x j).bind (subtractConstant z · k) := by
  induction k with
  | zero => cases subtractConstant z x j <;> rfl
  | succ k ih =>
    rw [← add_assoc, subtractConstant, ih]
    cases subtractConstant z x j <;> rfl

/-- While `k` is at most the value, every decrement finds a 1 bit. -/
theorem exists_subtractConstant_eq_ok (z : DecZero) {x : Bits} {k : Nat} (h : k ≤ val x) :
    ∃ r, subtractConstant z x k = .ok r ∧ r.length = x.length ∧ val r + k = val x := by
  induction k with
  | zero => exact ⟨x, rfl, rfl, rfl⟩
  | succ k ih =>
    obtain ⟨r, hr, hlen, hval⟩ := ih (by omega)
    have hmem : true ∈ r := (true_mem_iff_val_pos r).mpr (by omega)
    have hborrow := val_borrow hmem
    refine ⟨borrow r, ?_, by rw [length_borrow, hlen], by omega⟩
    rw [subtractConstant, hr]
    exact decrement_of_mem z hmem

/-- As many decrements as the value lead to zeros. -/
theorem subtractConstant_val (z : DecZero) (x : Bits) : subtractConstant z x (val x) = .ok (zeros x.length) := by
  obtain ⟨r, hr, hlen, hval⟩ := exists_subtractConstant_eq_ok z (le_refl (val x))
  have hzeros : r = zeros x.length := eq_of_length_val _ _ (by simp [zeros, hlen]) (by rw [val_zeros]; omega)
  rw [hr, hzeros]

/-- Past the value: one decrement of zeros, and the remaining `k - val x - 1` decrements from what it gives. -/
theorem subtractConstant_of_val_lt (z : DecZero) {x : Bits} {k : Nat} (h : val x < k) :
    subtractConstant z x k = (decrement z (zeros x.length)).bind (subtractConstant z · (k - val x - 1)) := by
  obtain ⟨m, rfl⟩ := Nat.exists_eq_add_of_lt h
  have hrest : val x + m + 1 - val x - 1 = m := by omega
  have hsplit : val x + m + 1 = val x + 1 + m := by omega
  rw [hrest, hsplit, subtractConstant_add, subtractConstant, subtractConstant_val]

/-- Zeros have no 1 bit. -/
theorem true_notMem_zeros (n : Nat) : true ∉ zeros n := by simp [zeros]

/-- Where a decrement of zeros raises DEC_ZERO, more decrements than the value do. -/
theorem subtractConstant_eq_error {z : DecZero} {x : Bits} {k : Nat} (h : val x < k)
    (hz : z = .error ∨ x.length = 0) : subtractConstant z x k = .error .decZero := by
  rw [subtractConstant_of_val_lt z h, decrement_eq_error (true_notMem_zeros _) (by simpa [zeros] using hz)]
  rfl

/-- `Shrink` goes on from all ones, one bit shorter. -/
theorem subtractConstant_shrink {x : Bits} {k : Nat} (h : val x < k) (hlen : 1 ≤ x.length) :
    subtractConstant .shrink x k = subtractConstant .shrink (ones (x.length - 1)) (k - val x - 1) := by
  have hzeros : (zeros x.length).length = x.length := List.length_replicate
  rw [subtractConstant_of_val_lt _ h, decrement_shrink (true_notMem_zeros _) (hzeros.symm ▸ hlen), hzeros]
  rfl

/-! ### A count operand of known sign -/

theorem countOperand_natCast (k : Nat) : countOperand k = .ok k := by simp [countOperand]

theorem countOperand_of_neg {n : Int} (h : n < 0) : countOperand n = .error .negCount := if_pos h

/-! ### The commands -/

theorem exec_inc (d a : VReg) (s : State) : exec (.inc d a) s = .next (s.wroteV d (increment (s.readV a))) := rfl

theorem execWith_dec (z : DecZero) (d a : VReg) (s : State) :
    execWith (.unbounded z) (.dec d a) s = retireV (.unbounded z) d (decrement z (s.readV a)) s := rfl

theorem exec_addk (d a : VReg) (b : SReg) (s : State) :
    exec (.addk d a b) s = retireV Config.params d ((countOperand (s.readS b)).map (addConstant (s.readV a))) s := rfl

theorem execWith_subk (z : DecZero) (d a : VReg) (b : SReg) (s : State) :
    execWith (.unbounded z) (.subk d a b) s =
      retireV (.unbounded z) d ((countOperand (s.readS b)).bind (subtractConstant z (s.readV a))) s := rfl

/-- DEC of a vector with a 1 bit writes the decrement, under either setting of DEC_ZERO. -/
theorem execWith_dec_of_mem (z : DecZero) (d : VReg) {a : VReg} {s : State} (h : true ∈ s.readV a) :
    execWith (.unbounded z) (.dec d a) s = .next (s.wroteV d (borrow (s.readV a))) := by
  rw [execWith_dec, decrement_of_mem z h, retireV_unbounded_ok]

/-- DEC of a vector with no 1 bit raises DEC_ZERO under `Error`, and for the zero-length vector. -/
theorem execWith_dec_eq_failed {z : DecZero} (d : VReg) {a : VReg} {s : State} (h : true ∉ s.readV a)
    (hz : z = .error ∨ (s.readV a).length = 0) :
    execWith (.unbounded z) (.dec d a) s = .next (s.failed .domainError .decZero) := by
  rw [execWith_dec, decrement_eq_error h hz, retireV_unbounded_error]

/-- Settles O28: the carry by its bits, and value and length of the increment. -/
theorem incRipplesCarry : Obligations.IncRipplesCarry := by
  unfold Obligations.IncRipplesCarry
  intro s d a
  refine ⟨by simp [toNat_encode, wordNumber, encodeFields, Fields.blank], increment (s.readV a), exec_inc d a s,
    fun j hj hlow => increment_ripples hj hlow, fun hall => ?_, val_increment _, length_increment _⟩
  have hones : s.readV a = ones (s.readV a).length := List.eq_replicate_iff.mpr ⟨rfl, hall⟩
  calc increment (s.readV a) = increment (ones (s.readV a).length) := congrArg increment hones
    _ = zeros (s.readV a).length ++ [true] := increment_ones _

/-- Settles O29: the borrow by its bits; the default engine is the unbounded one with DEC_ZERO = Error. -/
theorem decRipplesBorrow : Obligations.DecRipplesBorrow := by
  unfold Obligations.DecRipplesBorrow
  intro s d a
  rw [exec_eq_execWith_unbounded]
  refine ⟨fun hmem => ?_, fun hnone => execWith_dec_eq_failed d hnone (.inl rfl)⟩
  exact ⟨borrow (s.readV a), execWith_dec_of_mem .error d hmem, fun j hj hlow => borrow_ripples hj hlow,
    length_borrow _, val_borrow hmem⟩

/-- Settles O30: DEC writes what `decrement` gives under the setting, or raises its error. -/
theorem decOfZeroFollowsParameter : Obligations.DecOfZeroFollowsParameter := by
  unfold Obligations.DecOfZeroFollowsParameter
  intro z s d a
  refine ⟨by simp [toNat_encode, wordNumber, encodeFields, Fields.blank], fun hmem => ?_, ?_,
    execWith_dec_eq_failed d, ?_⟩
  · exact ⟨borrow (s.readV a), length_borrow _, val_borrow hmem, execWith_dec_of_mem z d hmem⟩
  · rintro hnone rfl hlen
    rw [execWith_dec, decrement_shrink hnone hlen]
    exact retireV_unbounded_ok .shrink d _ s
  · rintro rfl
    exact exec_eq_execWith_unbounded _ s

/-- Settles O31: `k` increments, and a vector is determined by its length and its value. -/
theorem addkAddsCount : Obligations.AddkAddsCount := by
  unfold Obligations.AddkAddsCount
  intro s d a b
  refine ⟨by simp [toNat_encode, wordNumber, encodeFields, Fields.blank], fun k hk => ?_, fun hneg => ?_⟩
  · refine ⟨addConstant (s.readV a) k, ?_, addConstant_eq_iterate _ k, val_addConstant _ k, length_addConstant _ k,
      fun x hval hlen => eq_of_length_val x _ hlen hval⟩
    rw [exec_addk, hk, countOperand_natCast]
    exact retireV_ok_wroteV d _ s
  · rw [exec_addk, countOperand_of_neg hneg]
    exact retireV_error_failed d _ s

/-- Settles O33: up to the value every decrement finds a 1 bit, past it one meets zeros; the command applies this. -/
theorem subkFollowsParameter : Obligations.SubkFollowsParameter := by
  unfold Obligations.SubkFollowsParameter
  refine ⟨fun d a b => by simp [toNat_encode, wordNumber, encodeFields, Fields.blank],
    fun z x k hle => exists_subtractConstant_eq_ok z hle, fun x k hlt => subtractConstant_eq_error hlt (.inl rfl),
    fun x k hlt hlen => subtractConstant_shrink hlt hlen, fun z k hpos => subtractConstant_eq_error hpos (.inr rfl),
    fun z s d a b k hk => ?_, fun z s d a b hneg => ?_⟩
  · rw [execWith_subk, hk, countOperand_natCast, Except.bind]
    cases subtractConstant z (s.readV a) k <;> rfl
  · rw [execWith_subk, countOperand_of_neg hneg]
    exact retireV_unbounded_error z d _ s

/-- Settles O54: INC leaves a value that is not 0, so DEC after it borrows; in the other order the old value, which fits the
kept length, is what INC reaches again. -/
theorem incDecInverse : Obligations.IncDecInverse := by
  unfold Obligations.IncDecInverse
  refine ⟨fun s d a e => ?_, fun s d a e hpos => ?_⟩
  · have hmem : true ∈ (s.wroteV d (increment (s.readV a))).readV d := by simp [true_mem_iff_val_pos]
    have hval := val_borrow hmem
    rw [State.readV_wroteV_same, val_increment, Nat.add_right_cancel_iff] at hval
    refine ⟨_, _, exec_inc d a s, (exec_eq_execWith_unbounded _ _).trans (execWith_dec_of_mem .error e hmem), ?_⟩
    simp only [State.readV_wroteV_same, length_borrow]
    exact ⟨hval, trivial, length_increment_eq_succ_iff _⟩
  · have hmem : true ∈ s.readV a := (true_mem_iff_val_pos _).mpr hpos
    refine ⟨_, _, (exec_eq_execWith_unbounded _ _).trans (execWith_dec_of_mem .error d hmem), exec_inc e d _, ?_⟩
    simp only [State.readV_wroteV_same, val_increment, length_increment, length_borrow, val_borrow hmem]
    exact ⟨trivial, max_eq_left (blen_val_le _)⟩

end Sys2Proof.Machine

/-! Proofs of the family 42_length.md. Each source function appends bits at the top or keeps the low ones; what it gives is
said once by its length, its bits and its value, and each command is said once as a whole next state for every outcome it
has. -/

namespace Sys2Proof.Machine

/-! ### The low part of a vector, and a vector with one bit above it -/

/-- The low `m` bits have the value modulo `2^m`. -/
theorem val_take (x : Bits) (m : Nat) : val (x.take m) = val x % 2 ^ m := by
  refine Nat.eq_of_testBit_eq fun i => ?_
  rw [testBit_val, Nat.testBit_mod_two_pow, testBit_val, List.getElem?_take]
  by_cases h : i < m <;> simp [h]

/-- A new top bit has the weight of the old length. -/
theorem val_append_singleton (x : Bits) (f : Bool) : val (x ++ [f]) = val x + f.toNat * 2 ^ x.length := by
  simp [val_append]

/-! ### `grow` (42_length.md R80) -/

@[simp] theorem length_grow (x : Bits) (k : Nat) : (grow x k).length = x.length + k := by simp [grow, zeros]

@[simp] theorem val_grow (x : Bits) (k : Nat) : val (grow x k) = val x := by simp [grow, val_append]

/-- Old bits keep their indices. -/
theorem getElem?_grow_of_lt {x : Bits} {i : Nat} (k : Nat) (h : i < x.length) : (grow x k)[i]? = x[i]? :=
  List.getElem?_append_left h

/-- The bits above the old length are 0. -/
theorem getElem?_grow_of_le {x : Bits} {k i : Nat} (hle : x.length ≤ i) (hlt : i < x.length + k) :
    (grow x k)[i]? = some false := by
  rw [grow, List.getElem?_append_right hle, zeros, List.getElem?_replicate_of_lt (by omega)]

/-! ### `shrink` (42_length.md R82) -/

theorem shrink_of_le {x : Bits} {k : Nat} (h : k ≤ x.length) : shrink x k = .ok (x.take (x.length - k)) :=
  if_neg h.not_gt

theorem shrink_of_lt {x : Bits} {k : Nat} (h : x.length < k) : shrink x k = .error .shrinkRange := if_pos h

/-! ### The commands, outcome by outcome -/

theorem exec_grow (d a : VReg) (b : SReg) (s : State) :
    exec (.grow d a b) s = retireV Config.params d ((countOperand (s.readS b)).map (grow (s.readV a))) s := rfl

theorem exec_shrink (d a : VReg) (b : SReg) (s : State) :
    exec (.shrink d a b) s = retireV Config.params d ((countOperand (s.readS b)).bind (shrink (s.readV a))) s := rfl

theorem exec_append (d a : VReg) (f : Bool) (s : State) :
    exec (.append d a f) s = .next (s.wroteV d (s.readV a ++ [f])) := rfl

section
variable {s : State} {b : SReg} {k : Nat}

/-- GROW by a count that is not negative. -/
theorem exec_grow_of_natCast (d a : VReg) (hk : s.readS b = k) :
    exec (.grow d a b) s = .next (s.wroteV d (grow (s.readV a) k)) := by
  rw [exec_grow, hk, countOperand_natCast]
  exact retireV_ok_wroteV d _ s

/-- GROW by a negative count. -/
theorem exec_grow_of_neg (d a : VReg) (hneg : s.readS b < 0) :
    exec (.grow d a b) s = .next (s.failed .domainError .negCount) := by
  rw [exec_grow, countOperand_of_neg hneg]
  exact retireV_error_failed d _ s

/-- SHRINK by a count within the vector. -/
theorem exec_shrink_of_le (d : VReg) {a : VReg} (hk : s.readS b = k) (hle : k ≤ (s.readV a).length) :
    exec (.shrink d a b) s = .next (s.wroteV d ((s.readV a).take ((s.readV a).length - k))) := by
  rw [exec_shrink, hk, countOperand_natCast, Except.bind, shrink_of_le hle]
  exact retireV_ok_wroteV d _ s

/-- SHRINK by more bits than the vector has. -/
theorem exec_shrink_of_lt (d : VReg) {a : VReg} (hk : s.readS b = k) (hlt : (s.readV a).length < k) :
    exec (.shrink d a b) s = .next (s.failed .domainError .shrinkRange) := by
  rw [exec_shrink, hk, countOperand_natCast, Except.bind, shrink_of_lt hlt]
  exact retireV_error_failed d _ s

/-- SHRINK by a negative count. -/
theorem exec_shrink_of_neg (d a : VReg) (hneg : s.readS b < 0) :
    exec (.shrink d a b) s = .next (s.failed .domainError .negCount) := by
  rw [exec_shrink, countOperand_of_neg hneg]
  exact retireV_error_failed d _ s

end

/-- Settles O34: the zeros stand above the old bits and weigh nothing. -/
theorem growAddsHighZeros : Obligations.GrowAddsHighZeros := by
  unfold Obligations.GrowAddsHighZeros
  intro s d a b
  refine ⟨by simp [toNat_encode, wordNumber, encodeFields, Fields.blank], fun k hk => ?_, exec_grow_of_neg d a⟩
  exact ⟨grow (s.readV a) k, exec_grow_of_natCast d a hk, length_grow _ k, fun i => getElem?_grow_of_lt k,
    fun i hle hlt => getElem?_grow_of_le hle (by simpa using hlt), val_grow _ k⟩

/-- Settles O35: what stays is the low `n - k` bits; a count above the length is not negative. -/
theorem shrinkDropsTopBits : Obligations.ShrinkDropsTopBits := by
  unfold Obligations.ShrinkDropsTopBits
  intro s d a b
  refine ⟨by simp [toNat_encode, wordNumber, encodeFields, Fields.blank], fun k hk hle => ?_, fun hlt => ?_,
    exec_shrink_of_neg d a⟩
  · have hlen : ((s.readV a).take ((s.readV a).length - k)).length = (s.readV a).length - k := by simp
    refine ⟨_, exec_shrink_of_le d hk hle, hlen, fun i hi => ?_, val_take _ _⟩
    exact List.getElem?_take_of_lt (hlen ▸ hi)
  · obtain ⟨k, hk⟩ := Int.eq_ofNat_of_zero_le (by omega : 0 ≤ s.readS b)
    exact exec_shrink_of_lt d hk (by omega)

/-- Settles O36: the new bit is the top one, with the weight of the old length. -/
theorem appendAddsTopBit : Obligations.AppendAddsTopBit := by
  unfold Obligations.AppendAddsTopBit
  intro s d a f
  refine ⟨by simp [toNat_encode, wordNumber, encodeFields, Fields.blank], s.readV a ++ [f], exec_append d a f s, ?_⟩
  exact ⟨List.length_append, List.getElem?_concat_length, fun i hi => List.getElem?_append_left hi,
    val_append_singleton _ f⟩

end Sys2Proof.Machine

/-! Proofs of the family 43_select.md. Each source function is said once by the bits it gives: a slice is the middle of three
parts, trimming is the library's `rdropWhile`, an inverted range is known bit by bit; each command is said once as a whole next
state for every outcome it has. -/

namespace Sys2Proof.Machine

/-! ### Half-open ranges (43_select.md R90, R98), and what a vector write leaves of the scalars -/

/-- A range of naturals that ends within the vector is in range. -/
theorem not_outOfRange_of_le {start count n : Nat} (h : start + count ≤ n) : ¬ OutOfRange start count n := by
  unfold OutOfRange
  omega

@[simp] theorem State.readS_wroteV (s : State) (d : VReg) (x : Bits) (b : SReg) : (s.wroteV d x).readS b = s.readS b := rfl

/-! ### `slice` and `concat` (43_select.md R90, R92) -/

theorem slice_of_le {x : Bits} {start count : Nat} (h : start + count ≤ x.length) :
    slice x start count = .ok ((x.drop start).take count) :=
  if_neg (not_outOfRange_of_le h)

theorem slice_of_outOfRange {x : Bits} {start count : Int} (h : OutOfRange start count x.length) :
    slice x start count = .error .sliceRange :=
  if_pos h

/-- The slice of a vector in three parts that starts and ends with the middle one. -/
theorem slice_append_append (x y z : Bits) : slice (x ++ y ++ z) x.length y.length = .ok y := by
  rw [slice_of_le (by simp), List.append_assoc, List.drop_left, List.take_left]

theorem slice_concat_low (x y : Bits) : slice (concat x y) 0 x.length = .ok x := slice_append_append [] x y

theorem slice_concat_high (x y : Bits) : slice (concat x y) x.length y.length = .ok y := by
  simpa [concat] using slice_append_append x y []

/-- Settles O56: both parts of a concatenation are its slices; a vector is the concatenation of its parts at any cut. -/
theorem concatSliceInverse : Obligations.ConcatSliceInverse := by
  unfold Obligations.ConcatSliceInverse
  refine ⟨fun a b => ⟨slice_concat_low a b, slice_concat_high a b⟩, fun x m hm => ?_⟩
  have hcut : concat (x.take m) (x.drop m) = x := List.take_append_drop m x
  have hlow := slice_concat_low (x.take m) (x.drop m)
  have hhigh := slice_concat_high (x.take m) (x.drop m)
  rw [hcut, List.length_take_of_le hm] at hlow hhigh
  rw [List.length_drop, Nat.cast_sub hm] at hhigh
  exact ⟨_, _, hlow, hhigh, hcut⟩

/-! ### `trimEnd` (43_select.md R94) is the library's `rdropWhile` -/

theorem trimEnd_eq_rdropWhile (x : Bits) (v : Bool) : trimEnd x v = x.rdropWhile (· == v) := by
  induction x using List.reverseRecOn with
  | nil => rfl
  | append_singleton x b ih => simp only [trimEnd_append_singleton, List.rdropWhile_concat, beq_iff_eq, ih]

theorem trimEnd_trimEnd (x : Bits) (v : Bool) : trimEnd (trimEnd x v) v = trimEnd x v := by
  simp only [trimEnd_eq_rdropWhile, List.rdropWhile_idempotent]

theorem trimEnd_eq_nil {x : Bits} {v : Bool} (h : ∀ b ∈ x, b = v) : trimEnd x v = [] := by
  rw [trimEnd_eq_rdropWhile, List.rdropWhile_eq_nil_iff]
  simpa using h

/-- A high part that equals `v` throughout is trimmed, and the trimming goes on below it. -/
theorem trimEnd_append_of_forall (x : Bits) {y : Bits} {v : Bool} (h : ∀ b ∈ y, b = v) :
    trimEnd (x ++ y) v = trimEnd x v := by
  rw [trimEnd_eq_rdropWhile, trimEnd_eq_rdropWhile, List.rdropWhile, List.reverse_append,
    List.dropWhile_append_of_pos (by simpa using h), List.rdropWhile]

/-- The part up to bit `j` is the part below it with bit `j` on top. -/
theorem take_succ_of_getElem?_eq {x : Bits} {c : Bool} {j : Nat} (hj : x[j]? = some c) :
    x.take (j + 1) = x.take j ++ [c] := by
  rw [List.take_add_one, hj, Option.toList_some]

/-- If no bit above `j` differs from `v`, the part above `j` equals `v` throughout. -/
theorem eq_of_mem_drop_succ {x : Bits} {v : Bool} {j : Nat} (hhigh : ∀ i : Nat, j < i → x[i]? ≠ some (!v)) :
    ∀ b ∈ x.drop (j + 1), b = v := by
  intro b hb
  obtain ⟨i, hi⟩ := List.mem_iff_getElem?.mp hb
  rw [List.getElem?_drop] at hi
  simpa [hi] using hhigh (j + 1 + i) (by omega)

/-- Trimming stops at the highest bit that differs from `v` and keeps it. -/
theorem trimEnd_eq_take {x : Bits} {v : Bool} {j : Nat} (hj : x[j]? = some (!v))
    (hhigh : ∀ i : Nat, j < i → x[i]? ≠ some (!v)) : trimEnd x v = x.take (j + 1) := by
  have htake := take_succ_of_getElem?_eq hj
  calc trimEnd x v = trimEnd (x.take (j + 1) ++ x.drop (j + 1)) v := by rw [List.take_append_drop]
    _ = trimEnd (x.take j ++ [!v]) v := by rw [trimEnd_append_of_forall _ (eq_of_mem_drop_succ hhigh), htake]
    _ = x.take (j + 1) := by rw [trimEnd_append_singleton, if_neg (Bool.not_ne_self v), htake]

/-- Without its high zeros a vector whose value is not 0 is minimal (00_scope.md R5). -/
theorem minimal_trimEnd_false {x : Bits} (h : val x ≠ 0) : minimal (trimEnd x false) = true := by
  have hpos : blen (val x) ≠ 0 := (blen_eq_zero_iff _).not.mpr h
  rw [minimal_iff_length, length_trimEnd_false, val_trimEnd_false, bitLength]
  omega

/-! ### `invertRange` and `flip` (43_select.md R98, 44_bitquery.md R107) -/

/-- The vector with the bits of `[start, start + count)` inverted. -/
def invertBits (x : Bits) (start count : Nat) : Bits :=
  x.mapIdx fun i b => if start ≤ i ∧ i < start + count then !b else b

theorem invertRange_of_le {x : Bits} {start count : Nat} (h : start + count ≤ x.length) :
    invertRange x start count = .ok (invertBits x start count) := by
  rw [invertRange, if_neg (not_outOfRange_of_le h), invertBits]
  norm_cast

theorem invertRange_of_outOfRange {x : Bits} {start count : Int} (h : OutOfRange start count x.length) :
    invertRange x start count = .error .invrRange :=
  if_pos h

@[simp] theorem length_invertBits (x : Bits) (start count : Nat) : (invertBits x start count).length = x.length :=
  List.length_mapIdx

theorem getElem?_invertBits (x : Bits) (start count i : Nat) :
    (invertBits x start count)[i]? = if start ≤ i ∧ i < start + count then x[i]?.map not else x[i]? := by
  rw [invertBits, List.getElem?_mapIdx]
  split <;> simp

/-- Inverting the same range twice restores the vector. -/
theorem invertBits_invertBits (x : Bits) (start count : Nat) :
    invertBits (invertBits x start count) start count = x := by
  refine List.ext_getElem? fun i => ?_
  simp only [getElem?_invertBits]
  split <;> simp [Function.comp_def]

/-- Inverting a range of one bit is inverting that bit. -/
theorem invertBits_one (x : Bits) (i : Nat) : invertBits x i 1 = x.modify i not := by
  refine List.ext_getElem? fun j => ?_
  have hone : i ≤ j ∧ j < i + 1 ↔ i = j := by omega
  simp only [getElem?_invertBits, hone, List.getElem?_modify]
  split <;> simp

theorem flip_of_lt {x : Bits} {i : Nat} (h : i < x.length) : flip x i = .ok (x.modify i not) := by
  have hin : ¬ ((i : Int) < 0 ∨ (x.length : Int) ≤ i) := by omega
  rw [flip, if_neg hin, Int.toNat_natCast]

/-! ### The commands, outcome by outcome -/

theorem exec_slice (d a : VReg) (b c : SReg) (s : State) :
    exec (.slice d a b c) s = retireV Config.params d (slice (s.readV a) (s.readS b) (s.readS c)) s := rfl

theorem exec_concat (d a b : VReg) (s : State) :
    exec (.concat d a b) s = .next (s.wroteV d (s.readV a ++ s.readV b)) := rfl

theorem exec_trimend (d a : VReg) (f : Bool) (s : State) :
    exec (.trimend d a f) s = .next (s.wroteV d (trimEnd (s.readV a) f)) := rfl

theorem exec_reverse (d a : VReg) (s : State) : exec (.reverse d a) s = .next (s.wroteV d (s.readV a).reverse) := rfl

theorem exec_invr (d a : VReg) (b c : SReg) (s : State) :
    exec (.invr d a b c) s = retireV Config.params d (invertRange (s.readV a) (s.readS b) (s.readS c)) s := rfl

theorem exec_flip (d a : VReg) (b : SReg) (s : State) :
    exec (.flip d a b) s = retireV Config.params d (flip (s.readV a) (s.readS b)) s := rfl

section
variable {s : State} {a : VReg} {b c : SReg} {start count : Nat}

/-- SLICE of a range within the vector. -/
theorem exec_slice_of_le (d : VReg) (hb : s.readS b = start) (hc : s.readS c = count)
    (hle : start + count ≤ (s.readV a).length) :
    exec (.slice d a b c) s = .next (s.wroteV d (((s.readV a).drop start).take count)) := by
  rw [exec_slice, hb, hc, slice_of_le hle, retireV_ok_wroteV]

/-- SLICE of a range not within the vector. -/
theorem exec_slice_of_outOfRange (d : VReg) (h : OutOfRange (s.readS b) (s.readS c) (s.readV a).length) :
    exec (.slice d a b c) s = .next (s.failed .domainError .sliceRange) := by
  rw [exec_slice, slice_of_outOfRange h, retireV_error_failed]

/-- INVR of a range within the vector. -/
theorem exec_invr_of_le (d : VReg) (hb : s.readS b = start) (hc : s.readS c = count)
    (hle : start + count ≤ (s.readV a).length) :
    exec (.invr d a b c) s = .next (s.wroteV d (invertBits (s.readV a) start count)) := by
  rw [exec_invr, hb, hc, invertRange_of_le hle, retireV_ok_wroteV]

/-- INVR of a range not within the vector. -/
theorem exec_invr_of_outOfRange (d : VReg) (h : OutOfRange (s.readS b) (s.readS c) (s.readV a).length) :
    exec (.invr d a b c) s = .next (s.failed .domainError .invrRange) := by
  rw [exec_invr, invertRange_of_outOfRange h, retireV_error_failed]

/-- FLIP of a bit of the vector. -/
theorem exec_flip_of_lt (d : VReg) {i : Nat} (hb : s.readS b = i) (hlt : i < (s.readV a).length) :
    exec (.flip d a b) s = .next (s.wroteV d ((s.readV a).modify i not)) := by
  rw [exec_flip, hb, flip_of_lt hlt, retireV_ok_wroteV]

end

/-- Settles O37: what stays after dropping the bits below the start is cut to the count. -/
theorem sliceCopiesHalfOpenRange : Obligations.SliceCopiesHalfOpenRange := by
  unfold Obligations.SliceCopiesHalfOpenRange
  intro s d a b c
  refine ⟨by simp [toNat_encode, wordNumber, encodeFields, Fields.blank], fun start count hb hc hle => ?_,
    exec_slice_of_outOfRange d⟩
  refine ⟨_, exec_slice_of_le d hb hc hle, ?_, fun j hj => ?_⟩
  · rw [List.length_take, List.length_drop]
    omega
  · rw [List.getElem?_take_of_lt hj, List.getElem?_drop]

/-- Settles O38: the second part has the weight of the first part's length. -/
theorem concatPutsFirstLow : Obligations.ConcatPutsFirstLow := by
  unfold Obligations.ConcatPutsFirstLow
  intro s d a b
  refine ⟨by simp [toNat_encode, wordNumber, encodeFields, Fields.blank], _, exec_concat d a b s, List.length_append,
    fun i hi => List.getElem?_append_left hi, fun i _ => ?_, val_append _ _⟩
  rw [List.getElem?_append_right (Nat.le_add_right _ i), Nat.add_sub_cancel_left]

/-- Settles O39: above the highest bit that differs from `f` all bits equal `f`, and trimming drops exactly these. -/
theorem trimendStopsAtHighestDifferingBit : Obligations.TrimendStopsAtHighestDifferingBit := by
  unfold Obligations.TrimendStopsAtHighestDifferingBit
  intro s d a f
  refine ⟨by simp [toNat_encode, wordNumber, encodeFields, Fields.blank], _, exec_trimend d a f s,
    fun j hj hhigh => ⟨trimEnd_eq_take hj hhigh, ?_⟩, trimEnd_eq_nil, fun e => ?_, ?_⟩
  · rw [trimEnd_eq_take hj hhigh, take_succ_of_getElem?_eq hj, List.getLast?_concat]
  · rw [exec_trimend, State.readV_wroteV_same, trimEnd_trimEnd]
  · rintro rfl
    refine ⟨val_trimEnd_false _, minimal_trimEnd_false, fun hzero => ?_⟩
    rw [← List.length_eq_zero_iff, length_trimEnd_false, blen_eq_zero_iff, hzero]

/-- Settles O40: the indices of a bit before and after add up to `n - 1`. -/
theorem reverseMirrorsIndices : Obligations.ReverseMirrorsIndices := by
  unfold Obligations.ReverseMirrorsIndices
  intro s d a
  refine ⟨by simp [toNat_encode, wordNumber, encodeFields, Fields.blank], _, exec_reverse d a s, List.length_reverse,
    fun i hi => List.getElem?_reverse' (by omega), fun e => ?_⟩
  rw [exec_reverse, State.readV_wroteV_same, List.reverse_reverse]

/-- Settles O41: a write of a vector leaves the range and the length, so INVR of the result inverts the same bits back. -/
theorem invrInvertsHalfOpenRange : Obligations.InvrInvertsHalfOpenRange := by
  unfold Obligations.InvrInvertsHalfOpenRange
  intro s d a b c
  refine ⟨by simp [toNat_encode, wordNumber, encodeFields, Fields.blank], fun start count hb hc hle => ?_,
    exec_invr_of_outOfRange d⟩
  refine ⟨_, exec_invr_of_le d hb hc hle, length_invertBits _ _ _, getElem?_invertBits _ _ _, fun e => ?_, ?_⟩
  · rw [exec_invr, State.readS_wroteV, State.readS_wroteV, State.readV_wroteV_same, hb, hc,
      invertRange_of_le (by simpa using hle), invertBits_invertBits, retireV_ok_wroteV]
  · rintro rfl
    rw [exec_flip_of_lt d hb (by omega), invertBits_one]

end Sys2Proof.Machine

/-! Proofs of the family 44_bitquery.md. What each source function says of a vector is said once by the vector's indices; the
commands write it to their one destination, and FLIP alone can fail. -/

namespace Sys2Proof.Machine

/-! ### The source functions, index by index (44_bitquery.md R105, R107, R109) -/

/-- The number of set bits is the number of indices that hold one. -/
theorem hammingWeight_eq_card (x : Bits) :
    hammingWeight x = ((Finset.range x.length).filter fun i => x[i]? = some true).card := by
  rw [Finset.card_filter]
  induction x with
  | nil => rfl
  | cons b bs ih =>
    rw [List.length_cons, Finset.sum_range_succ', hammingWeight, List.count_cons]
    simp only [List.getElem?_cons_succ, List.getElem?_cons_zero, Option.some_inj, beq_iff_eq]
    rw [← ih, hammingWeight]

theorem hammingWeight_le_length (x : Bits) : hammingWeight x ≤ x.length := List.count_le_length

theorem flip_of_outOfRange {x : Bits} {i : Int} (h : i < 0 ∨ (x.length : Int) ≤ i) : flip x i = .error .flipRange :=
  if_pos h

/-- Inverting the same bit twice restores the vector. -/
theorem modify_not_modify_not (x : Bits) (i : Nat) : (x.modify i not).modify i not = x := by
  rw [List.modify_modify_eq, Bool.involutive_not.comp_self, List.modify_id]

/-- Equality is that of the lengths and of the bits below them, with no numeric normalization. -/
theorem equals_iff (x y : Bits) :
    equals x y = true ↔ x.length = y.length ∧ ∀ i < x.length, x[i]? = y[i]? := by
  rw [equals, beq_iff_eq]
  constructor
  · rintro rfl
    exact ⟨rfl, fun _ _ => rfl⟩
  · rintro ⟨hlen, hbits⟩
    exact List.ext_getElem?' (by rwa [← hlen, max_self])

/-! ### The commands, outcome by outcome -/

theorem exec_hweight (d : SReg) (a : VReg) (s : State) :
    exec (.hweight d a) s = .next (s.wroteS d (hammingWeight (s.readV a))) := rfl

theorem exec_equals (d : SReg) (a b : VReg) (s : State) :
    exec (.equals d a b) s = .next (s.wroteS d (if equals (s.readV a) (s.readV b) then 1 else 0)) := rfl

theorem exec_len (d : SReg) (a : VReg) (s : State) : exec (.len d a) s = .next (s.wroteS d (s.readV a).length) := rfl

section
variable {s : State} {a : VReg} {b : SReg}

/-- FLIP of an index outside the vector. -/
theorem exec_flip_of_outOfRange (d : VReg) (h : s.readS b < 0 ∨ ((s.readV a).length : Int) ≤ s.readS b) :
    exec (.flip d a b) s = .next (s.failed .domainError .flipRange) := by
  rw [exec_flip, flip_of_outOfRange h, retireV_error_failed]

/-- FLIP of a register just written with bit `i` inverted writes the vector with that bit inverted back. -/
theorem exec_flip_wroteV_modify (d e : VReg) (x : Bits) {i : Nat} (hb : s.readS b = i) (hlt : i < x.length) :
    exec (.flip e d b) (s.wroteV d (x.modify i not)) = .next ((s.wroteV d (x.modify i not)).wroteV e x) := by
  rw [exec_flip_of_lt e (by rwa [State.readS_wroteV]) (by simpa using hlt), State.readV_wroteV_same,
    modify_not_modify_not]

end

/-- Settles O42: the count of the bit 1 in the vector is the count of the indices that hold it. -/
theorem hweightCountsSetIndices : Obligations.HweightCountsSetIndices := by
  unfold Obligations.HweightCountsSetIndices
  intro s d a
  exact ⟨by simp [toNat_encode, wordNumber, encodeFields, Fields.blank], hammingWeight (s.readV a), exec_hweight d a s,
    hammingWeight_le_length _, hammingWeight_eq_card _⟩

/-- Settles O43: `modify` changes the one index it names; the scalar that names it survives the write of the vector. -/
theorem flipTogglesOneBit : Obligations.FlipTogglesOneBit := by
  unfold Obligations.FlipTogglesOneBit
  intro s d a b
  refine ⟨by simp [toNat_encode, wordNumber, encodeFields, Fields.blank], fun i hb hlt => ?_, exec_flip_of_outOfRange d⟩
  exact ⟨(s.readV a).modify i not, exec_flip_of_lt d hb hlt, List.length_modify _ _ _, List.getElem?_modify_eq _ _ _,
    fun j hj => List.getElem?_modify_ne _ _ hj.symm, fun e => exec_flip_wroteV_modify d e _ hb hlt⟩

/-- Settles O44: the two cases are `equals` and its negation. -/
theorem equalsComparesLengthAndBits : Obligations.EqualsComparesLengthAndBits := by
  unfold Obligations.EqualsComparesLengthAndBits
  intro s d a b
  refine ⟨by simp [toNat_encode, wordNumber, encodeFields, Fields.blank], fun heq => ?_, fun hne => ?_⟩
  · rw [exec_equals, if_pos ((equals_iff _ _).mpr heq)]
  · rw [exec_equals, if_neg ((equals_iff _ _).not.mpr hne)]

/-- Settles O45: LEN ends with the length of its source. -/
theorem lenWritesLength : Obligations.LenWritesLength := by
  unfold Obligations.LenWritesLength
  intro s d a
  exact ⟨by simp [toNat_encode, wordNumber, encodeFields, Fields.blank], exec_len d a s⟩

end Sys2Proof.Machine

/-! Proofs of the family 45_codec.md. Both directions of the codec meet in the restored vector: `decode` is its value less the
bias, it is the minimal vector of the biased value, and the transform of `encode` takes it back to the codeword. So `encode`
gives exactly the non-empty vectors that `decode` takes to its argument, and the statements follow from this one equivalence. -/

namespace Sys2Proof.Machine

/-! ### The inverted bits of a vector, by value -/

/-- Inverting every bit is the exclusive or with all ones. -/
theorem val_map_not (x : Bits) : val (x.map not) = val x ^^^ (2 ^ x.length - 1) := by
  refine Nat.eq_of_testBit_eq fun i => ?_
  rw [Nat.testBit_xor, testBit_val, testBit_val, Nat.testBit_two_pow_sub_one, List.getElem?_map]
  by_cases h : i < x.length <;> simp [h]

/-- Inverting every bit but bit 0 is the exclusive or with the ones above bit 0. -/
theorem val_cons_map_not (c0 : Bool) (rest : Bits) :
    val (c0 :: rest.map not) = val (c0 :: rest) ^^^ (2 ^ (rest.length + 1) - 2) := by
  have hdouble : 2 ^ (rest.length + 1) - 2 = 2 * (2 ^ rest.length - 1) := by rw [pow_succ]; omega
  have hcons (bs : Bits) : val (c0 :: bs) = Nat.bit c0 (val bs) := by rw [val_cons, Nat.bit_val, add_comm]
  rw [hcons, hcons, val_map_not, hdouble]
  simpa using (Nat.xor_bit c0 (val rest) false (2 ^ rest.length - 1)).symm

/-! ### The restored vector (45_codec.md R124) -/

theorem length_restoreBiased (c0 : Bool) (rest : Bits) : (restoreBiased c0 rest).length = rest.length + 2 := by
  simp [restoreBiased]

/-- The top bit has the weight `2^n` of the codeword's length `n`; below it stand bit 0 and the inverted others. -/
theorem val_restoreBiased (c0 : Bool) (rest : Bits) :
    val (restoreBiased c0 rest) =
      2 ^ (rest.length + 1) + (val (c0 :: rest) ^^^ (2 ^ (rest.length + 1) - 2)) := by
  rw [← val_cons_map_not, restoreBiased, val_append_singleton]
  simp [add_comm]

/-- The top bit 1 makes the value need every bit. -/
theorem blen_val_restoreBiased (c0 : Bool) (rest : Bits) : blen (val (restoreBiased c0 rest)) = rest.length + 2 := by
  simpa [restoreBiased] using blen_val_append_true (c0 :: rest.map not)

theorem two_pow_le_val_restoreBiased (c0 : Bool) (rest : Bits) :
    2 ^ (rest.length + 1) ≤ val (restoreBiased c0 rest) := by
  rw [val_restoreBiased]
  exact Nat.le_add_right _ _

/-- The value holds the bias. -/
theorem two_le_val_restoreBiased (c0 : Bool) (rest : Bits) : 2 ≤ val (restoreBiased c0 rest) :=
  le_trans (Nat.le_self_pow rest.length.succ_ne_zero 2) (two_pow_le_val_restoreBiased c0 rest)

theorem minimal_restoreBiased (c0 : Bool) (rest : Bits) : minimal (restoreBiased c0 rest) = true := by
  rw [minimal_iff_length, bitLength, blen_val_restoreBiased, length_restoreBiased]
  omega

/-- The bits: bit 0 of the codeword, its inverted other bits, the bit 1. -/
theorem getElem?_restoreBiased (c0 : Bool) (rest : Bits) :
    (restoreBiased c0 rest)[0]? = (c0 :: rest)[0]? ∧
      (∀ i : Nat, 1 ≤ i → i < (c0 :: rest).length → (restoreBiased c0 rest)[i]? = (c0 :: rest)[i]?.map not) ∧
      (restoreBiased c0 rest)[(c0 :: rest).length]? = some true := by
  refine ⟨rfl, fun i hpos hlt => ?_, by simp [restoreBiased]⟩
  obtain ⟨j, rfl⟩ := Nat.exists_eq_add_of_le' hpos
  have hj : j < (rest.map not).length := by simpa using hlt
  rw [restoreBiased, List.cons_append, List.getElem?_cons_succ, List.getElem?_append_left hj, List.getElem?_map,
    List.getElem?_cons_succ]

/-- Every minimal vector of two bits or more is a restored one: its top bit is 1. -/
theorem exists_eq_restoreBiased {x : Bits} (hmin : minimal x = true) (hlen : 2 ≤ x.length) :
    ∃ c0 rest, x = restoreBiased c0 rest := by
  match x, hlen with
  | b :: y :: ys, _ =>
    have htop : (y :: ys).getLast? = some true := by simpa [minimal] using hmin
    refine ⟨b, (y :: ys).dropLast.map not, ?_⟩
    rw [restoreBiased, List.map_map, Bool.involutive_not.comp_self, List.map_id, List.cons_append,
      List.dropLast_append_getLast? true htop]

/-! ### `encode` and `decode` are inverse to each other (45_codec.md R126) -/

/-- Stages EN3 and EN4 take the restored vector back to the codeword. -/
theorem encodeTransform_restoreBiased (c0 : Bool) (rest : Bits) : encodeTransform (restoreBiased c0 rest) = c0 :: rest := by
  simp [restoreBiased, encodeTransform, Function.comp_def]

theorem compactEncode_natCast (v : Nat) :
    compactEncode v = .ok (encodeTransform (bitsOf (v + 2) (bitLength (v + 2)))) := by
  have hv : ¬ (v : Int) < 0 := by omega
  rw [compactEncode, if_neg hv]
  exact congrArg (Except.map encodeTransform) (fromInteger_natCast (v + 2) true)

theorem compactEncode_of_neg {v : Int} (h : v < 0) : compactEncode v = .error .negInteger := if_pos h

theorem compactDecode_cons (c0 : Bool) (rest : Bits) : compactDecode (c0 :: rest) = val (restoreBiased c0 rest) - 2 := rfl

/-- A non-empty vector decodes to `v` exactly if its restored vector has the biased value. -/
theorem compactDecode_cons_eq_iff (c0 : Bool) (rest : Bits) (v : Nat) :
    compactDecode (c0 :: rest) = v ↔ val (restoreBiased c0 rest) = v + 2 := by
  rw [compactDecode_cons]
  omega

/-- The codeword whose restored vector has the biased value. -/
theorem compactEncode_of_val_restoreBiased {c0 : Bool} {rest : Bits} {v : Nat}
    (h : val (restoreBiased c0 rest) = v + 2) : compactEncode v = .ok (c0 :: rest) := by
  rw [compactEncode_natCast, ← h, (bitsOf_bitLength_eq_iff_minimal _).mpr (minimal_restoreBiased c0 rest),
    encodeTransform_restoreBiased]

/-- The minimal vector of a biased value has two bits or more, so it is a restored one. -/
theorem exists_val_restoreBiased_eq (v : Nat) : ∃ c0 rest, val (restoreBiased c0 rest) = v + 2 := by
  have hlen : 2 ≤ (bitsOf (v + 2) (bitLength (v + 2))).length := by
    have hblen : ¬ blen (v + 2) ≤ 1 := by rw [blen_le_iff]; omega
    rw [length_bitsOf, bitLength]
    omega
  obtain ⟨c0, rest, h⟩ := exists_eq_restoreBiased (minimal_bitsOf_bitLength (v + 2)) hlen
  exact ⟨c0, rest, by rw [← h]; exact val_bitsOf_fromIntegerLength (v + 2) true⟩

/-- A codeword is a non-empty vector, and its restored vector has the biased value. -/
theorem exists_cons_of_compactEncode {v : Nat} {c : Bits} (h : compactEncode v = .ok c) :
    ∃ c0 rest, c = c0 :: rest ∧ val (restoreBiased c0 rest) = v + 2 := by
  obtain ⟨c0, rest, hval⟩ := exists_val_restoreBiased_eq v
  rw [compactEncode_of_val_restoreBiased hval] at h
  exact ⟨c0, rest, (Except.ok.inj h).symm, hval⟩

/-- The codeword of `v` is the one non-empty vector that decodes to `v`. -/
theorem compactEncode_eq_ok_iff (v : Nat) (c : Bits) : compactEncode v = .ok c ↔ c ≠ [] ∧ compactDecode c = v := by
  constructor
  · intro h
    obtain ⟨c0, rest, rfl, hval⟩ := exists_cons_of_compactEncode h
    exact ⟨List.cons_ne_nil _ _, (compactDecode_cons_eq_iff c0 rest v).mpr hval⟩
  · rintro ⟨hne, hdec⟩
    obtain ⟨c0, rest, rfl⟩ := List.exists_cons_of_ne_nil hne
    exact compactEncode_of_val_restoreBiased ((compactDecode_cons_eq_iff c0 rest v).mp hdec)

/-- Every natural number has a codeword. -/
theorem exists_compactEncode_eq_ok (v : Nat) : ∃ c, compactEncode v = .ok c := ⟨_, compactEncode_natCast v⟩

/-- Every vector decodes to a natural number: the zero-length one to 0, any other holds the bias. -/
theorem exists_compactDecode_eq_natCast (c : Bits) : ∃ m : Nat, compactDecode c = m := by
  cases c with
  | nil => exact ⟨0, rfl⟩
  | cons c0 rest =>
    have hbias := two_le_val_restoreBiased c0 rest
    exact ⟨val (restoreBiased c0 rest) - 2, (compactDecode_cons_eq_iff c0 rest _).mpr (by omega)⟩

/-- `decode` is one-to-one on the non-empty vectors, for they are codewords. -/
theorem eq_of_compactDecode_eq {c x : Bits} (hc : c ≠ []) (hx : x ≠ []) (h : compactDecode c = compactDecode x) :
    c = x := by
  obtain ⟨m, hm⟩ := exists_compactDecode_eq_natCast x
  have hencC := (compactEncode_eq_ok_iff m c).mpr ⟨hc, h.trans hm⟩
  have hencX := (compactEncode_eq_ok_iff m x).mpr ⟨hx, hm⟩
  exact Except.ok.inj (hencC.symm.trans hencX)

/-! ### A codeword by its length and its value (45_codec.md R123) -/

section
variable {v : Nat} {r : Bits} (h : compactEncode v = .ok r)
include h

theorem length_of_compactEncode : r.length + 1 = blen (v + 2) := by
  obtain ⟨c0, rest, rfl, hval⟩ := exists_cons_of_compactEncode h
  rw [← hval, blen_val_restoreBiased, List.length_cons]

theorem length_pos_of_compactEncode : 1 ≤ r.length := by
  obtain ⟨hne, -⟩ := (compactEncode_eq_ok_iff v r).mp h
  exact List.length_pos_iff.mpr hne

/-- The codewords of length `n` are those of the biased values from `2^n` up to, not including, `2^(n+1)`. -/
theorem bounds_of_compactEncode : 2 ^ r.length ≤ v + 2 ∧ v + 2 < 2 ^ (r.length + 1) := by
  obtain ⟨c0, rest, rfl, hval⟩ := exists_cons_of_compactEncode h
  have hlt := val_lt (restoreBiased c0 rest)
  rw [hval, length_restoreBiased] at hlt
  exact ⟨hval ▸ two_pow_le_val_restoreBiased c0 rest, hlt⟩

/-- The closed form of the codeword's value: that of the restored vector, read backwards. -/
theorem val_of_compactEncode : val r = (v + 2 - 2 ^ r.length) ^^^ (2 ^ r.length - 2) := by
  obtain ⟨c0, rest, rfl, hval⟩ := exists_cons_of_compactEncode h
  rw [← hval, val_restoreBiased, List.length_cons, Nat.add_sub_cancel_left, Nat.xor_xor_cancel_right]

/-- Below the top bit 1 of the biased value stand bit 0 of the codeword and its inverted other bits. -/
theorem getElem?_of_compactEncode :
    (v + 2).testBit r.length = true ∧ r[0]? = some ((v + 2).testBit 0) ∧
      ∀ i, 1 ≤ i → i < r.length → r[i]? = some (!(v + 2).testBit i) := by
  obtain ⟨c0, rest, rfl, hval⟩ := exists_cons_of_compactEncode h
  obtain ⟨hlow, hinterior, htop⟩ := getElem?_restoreBiased c0 rest
  simp only [← hval, testBit_val]
  refine ⟨by rw [htop]; rfl, by rw [hlow]; rfl, fun i hpos hlt => ?_⟩
  rw [hinterior i hpos hlt, List.getElem?_eq_getElem hlt]
  simp

end

/-- Settles O47: the codewords of `v` are the non-empty vectors that decode to `v`, and every vector decodes to some `v`. -/
theorem encodeIsBijectionOntoNonEmpty : Obligations.EncodeIsBijectionOntoNonEmpty := by
  unfold Obligations.EncodeIsBijectionOntoNonEmpty
  refine ⟨fun v r h => ?_, fun v w r x hle hv hw => ?_, fun c hne => ?_⟩
  · have hlen := length_of_compactEncode h
    obtain ⟨hlow, hhigh⟩ := bounds_of_compactEncode h
    exact ⟨by omega, length_pos_of_compactEncode h, by omega, by omega, val_of_compactEncode h⟩
  · have hmono : blen (v + 2) ≤ blen (w + 2) := blen_mono (Nat.add_le_add_right hle 2)
    rw [← length_of_compactEncode hv, ← length_of_compactEncode hw] at hmono
    omega
  · obtain ⟨v, hv⟩ := exists_compactDecode_eq_natCast c
    refine ⟨v, (compactEncode_eq_ok_iff v c).mpr ⟨hne, hv⟩, fun w hw => ?_⟩
    obtain ⟨-, hdec⟩ := (compactEncode_eq_ok_iff w c).mp hw
    exact Int.ofNat_inj.mp (hdec.symm.trans hv)

/-! ### The commands -/

/-- The destination reads as the value written. -/
@[simp] theorem State.readS_wroteS_same (s : State) (d : SReg) (n : Int) : (s.wroteS d n).readS d = n :=
  (State.readS_writeS s d d n).trans (if_pos rfl)

theorem exec_encode (d : VReg) (a : SReg) (s : State) :
    exec (.encode d a) s = retireV Config.params d (compactEncode (s.readS a)) s := rfl

theorem exec_decode (d : SReg) (a : VReg) (s : State) :
    exec (.decode d a) s = .next (s.wroteS d (compactDecode (s.readV a))) := rfl

section
variable {s : State} {a : SReg}

/-- ENCODE of a scalar that has a codeword. -/
theorem exec_encode_of_ok (d : VReg) {c : Bits} (h : compactEncode (s.readS a) = .ok c) :
    exec (.encode d a) s = .next (s.wroteV d c) := by
  rw [exec_encode, h, retireV_ok_wroteV]

/-- ENCODE of a negative scalar. -/
theorem exec_encode_of_neg (d : VReg) (hneg : s.readS a < 0) :
    exec (.encode d a) s = .next (s.failed .domainError .negInteger) := by
  rw [exec_encode, compactEncode_of_neg hneg, retireV_error_failed]

end

/-- Settles O46: ENCODE writes the codeword, whose bits are those of the restored vector. -/
theorem encodeInvertsInteriorDropsTop : Obligations.EncodeInvertsInteriorDropsTop := by
  unfold Obligations.EncodeInvertsInteriorDropsTop
  intro s d a
  refine ⟨by simp [toNat_encode, wordNumber, encodeFields, Fields.blank], fun v hv => ?_, exec_encode_of_neg d⟩
  obtain ⟨c, hc⟩ := exists_compactEncode_eq_ok v
  have hlen := length_of_compactEncode hc
  exact ⟨c, exec_encode_of_ok d (hv ▸ hc), by omega, length_pos_of_compactEncode hc, getElem?_of_compactEncode hc⟩

/-- Settles O48: DECODE writes the restored vector's value less the bias, which that value holds. -/
theorem decodeRestoresAndRemovesBias : Obligations.DecodeRestoresAndRemovesBias := by
  unfold Obligations.DecodeRestoresAndRemovesBias
  intro s d a
  refine ⟨by simp [toNat_encode, wordNumber, encodeFields, Fields.blank], fun hnil => ?_, fun hne => ?_⟩
  · rw [exec_decode, hnil, compactDecode]
  · obtain ⟨c0, rest, hc⟩ := List.exists_cons_of_ne_nil hne
    obtain ⟨m, hm⟩ := exists_compactDecode_eq_natCast (c0 :: rest)
    have hval := (compactDecode_cons_eq_iff c0 rest m).mp hm
    obtain ⟨hlow, hinterior, htop⟩ := getElem?_restoreBiased c0 rest
    rw [exec_decode, hc, hm]
    exact ⟨restoreBiased c0 rest, m, rfl, length_restoreBiased c0 rest, hlow, hinterior, htop, hval.symm,
      hval.symm.trans (val_restoreBiased c0 rest)⟩

/-- Settles O49: a value written is read back, and on values the two directions are one equivalence. -/
theorem codecRoundTrips : Obligations.CodecRoundTrips := by
  unfold Obligations.CodecRoundTrips
  refine ⟨fun s d a e hnonneg => ?_, fun s a e d hne => ?_⟩
  · obtain ⟨v, hv⟩ := Int.eq_ofNat_of_zero_le hnonneg
    obtain ⟨c, hc⟩ := exists_compactEncode_eq_ok v
    obtain ⟨-, hdec⟩ := (compactEncode_eq_ok_iff v c).mp hc
    refine ⟨_, _, exec_encode_of_ok d (hv ▸ hc), exec_decode e d _, ?_⟩
    rw [State.readS_wroteS_same, State.readV_wroteV_same, hdec, hv]
  · obtain ⟨m, hm⟩ := exists_compactDecode_eq_natCast (s.readV a)
    have henc := (compactEncode_eq_ok_iff m (s.readV a)).mpr ⟨hne, hm⟩
    refine ⟨_, _, exec_decode d a s, exec_encode_of_ok e (c := s.readV a) ?_, State.readV_wroteV_same _ _ _⟩
    rw [State.readS_wroteS_same, hm, henc]

/-- Settles O50: `decode` is total and one-to-one on the non-empty vectors, and an extended vector is a different one. -/
theorem wrongLengthDecodesToOtherInteger : Obligations.WrongLengthDecodesToOtherInteger := by
  unfold Obligations.WrongLengthDecodesToOtherInteger
  refine ⟨fun s d a => ?_, fun c x hc hx => eq_of_compactDecode_eq hc hx, fun c x hc hx h => ?_⟩
  · obtain ⟨m, hm⟩ := exists_compactDecode_eq_natCast (s.readV a)
    exact ⟨m, by rw [exec_decode, hm]⟩
  · have hsame := eq_of_compactDecode_eq (List.append_ne_nil_of_left_ne_nil hc x) hc h
    exact hx (List.append_right_eq_self.mp hsame)

end Sys2Proof.Machine

/-! Proofs of the family 46_system.md. Opcode 23 has one row, of the format without fields, so a legal word of it decodes to
CLRERR and is therefore CLRERR's word. -/

namespace Sys2Proof

/-- The opcode of a word is its number modulo 32 (30_encoding.md R40). -/
theorem fieldsOf_op (w : Word) : ((fieldsOf w).op : Nat) = w.toNat % 32 := rfl

theorem encode_clrerr : encode .clrerr = 0x00000017 := rfl

/-- The only command of opcode 23 is CLRERR (30_encoding.md R41). -/
theorem eq_clrerr_of_decode_eq_ok {w : Word} {i : Instr} (hop : w.toNat % 32 = 23) (h : decode w = .ok i) :
    i = .clrerr := by
  obtain ⟨fmt, build, hrow, -, rfl⟩ := (decode_eq_ok_iff w i).mp h
  rw [fieldsOf_op, hop] at hrow
  cases hrow
  rfl

end Sys2Proof

namespace Sys2Proof.Machine

theorem exec_clrerr (s : State) : exec .clrerr s = .next (s.clearStatus.respond .ok) := rfl

/-- Settles O57: a legal word of opcode 23 is CLRERR's word, and CLRERR clears STATUS and answers ok. -/
theorem clrerrClearsLatch : Obligations.ClrerrClearsLatch := by
  unfold Obligations.ClrerrClearsLatch
  refine ⟨encode_clrerr, fun w hop hne => ?_, exec_clrerr⟩
  cases hdec : decode w with
  | error e => exact ⟨e, rfl⟩
  | ok i =>
    have hi : i = .clrerr := eq_clrerr_of_decode_eq_ok hop hdec
    have hw : encode i = w := encode_of_decode_eq_ok hdec
    exact absurd (by rw [← hw, hi, encode_clrerr]) hne

end Sys2Proof.Machine

/-! Proofs of the family 60_exceptions.md. An error leaves by two ways only: a result with a cause at the shared end of a command
that writes a vector, and a word that is no legal command. So when a command fails is asked of its source function, and for
each of these the table of R141 is an equivalence. -/

namespace Sys2Proof.Machine

/-! ### What an error response tells (60_exceptions.md R145) -/

/-- A raised error is known from the response it added. -/
theorem State.raise_eq_failed {s : State} {k k' : Kind} {c c' : Cause}
    (h : (s.raise k' c').responses = s.responses ++ [.error k c]) : k' = k ∧ c' = c ∧ s.raise k' c' = s.failed k c := by
  obtain ⟨rfl, rfl⟩ : k' = k ∧ c' = c := by simpa using h
  exact ⟨rfl, rfl, rfl⟩

/-- A command that answers an error ended as a failed source function, with that function's cause. -/
theorem eq_failed_of_execWith_error {p : Params} {i : Instr} {s t : State} {k : Kind} {c : Cause}
    (h : execWith p i s = .next t) (hresp : t.responses = s.responses ++ [.error k c]) :
    k = .domainError ∧ c ≠ .none ∧ t = s.failed k c := by
  rcases execWith_cases p.decZero i s with
    ⟨d, r, -, -, -, -, hcause, e⟩ | ⟨d, n, -, -, -, -, e⟩ | ⟨ys, -, -, -, -, e⟩ | ⟨-, e⟩
  · rw [e p rfl] at h
    rcases retireV_cases p d r s with ⟨c', rfl, e⟩ | ⟨x, -, -, e⟩ | ⟨x, -, -, e⟩ <;> rw [e] at h <;> cases h
    · obtain ⟨rfl, rfl, hfailed⟩ := State.raise_eq_failed hresp
      exact ⟨rfl, hcause _ rfl, hfailed⟩
    · simp at hresp
  · rw [e p rfl] at h
    rcases retireS_cases p d n s with ⟨-, e⟩ | ⟨-, e⟩ <;> rw [e] at h <;> cases h
    simp at hresp
  · rw [e p rfl] at h
    rcases retireB_cases p ys s with ⟨-, e⟩ | ⟨-, e⟩ <;> rw [e] at h <;> cases h
    simp at hresp
  · rw [e p] at h
    cases h
    simp at hresp

/-- A command word that is the host's next move is run on the state without it, at any parameters. -/
theorem stepWith_command (p : Params) {s : State} {w : Word} {rest : List HostMove} (h : s.inputs = .command w :: rest) :
    stepWith p s = command (execWith p) w { s with inputs := rest } := by
  simp [stepWith, engineStep, perform, h]

/-- Settles O18: a step on a command word executes the command, whose error is a failed source function's, or raises
IllegalCommand. -/
theorem errorHasNoEffectButResponseAndLatch : Obligations.ErrorHasNoEffectButResponseAndLatch := by
  unfold Obligations.ErrorHasNoEffectButResponseAndLatch
  refine ⟨fun p i s t k c => eq_failed_of_execWith_error, fun p s t w rest k c hnext hstep hresp => ?_⟩
  rw [stepWith_command p hnext] at hstep
  rcases command_cases (execWith p) w { s with inputs := rest } with ⟨i, -, e⟩ | ⟨e', -, e⟩ <;> rw [e] at hstep
  · obtain ⟨-, -, hfailed⟩ := eq_failed_of_execWith_error hstep hresp
    exact hfailed
  · cases hstep
    obtain ⟨-, -, hfailed⟩ := State.raise_eq_failed hresp
    exact hfailed

/-! ### When each source function fails, and with which cause (60_exceptions.md R141) -/

theorem fromInteger_eq_error_iff (v : Int) (f : Bool) (c : Cause) :
    fromInteger v f = .error c ↔ c = .negInteger ∧ v < 0 :=
  ⟨fromInteger_error, fun ⟨hc, hneg⟩ => hc ▸ fromInteger_of_neg hneg f⟩

theorem compactEncode_eq_error_iff (v : Int) (c : Cause) : compactEncode v = .error c ↔ c = .negInteger ∧ v < 0 :=
  ⟨compactEncode_error, fun ⟨hc, hneg⟩ => hc ▸ compactEncode_of_neg hneg⟩

theorem slice_eq_error_iff (x : Bits) (start count : Int) (c : Cause) :
    slice x start count = .error c ↔ c = .sliceRange ∧ OutOfRange start count x.length :=
  ⟨slice_error, fun ⟨hc, hout⟩ => hc ▸ slice_of_outOfRange hout⟩

theorem invertRange_eq_error_iff (x : Bits) (start count : Int) (c : Cause) :
    invertRange x start count = .error c ↔ c = .invrRange ∧ OutOfRange start count x.length :=
  ⟨invertRange_error, fun ⟨hc, hout⟩ => hc ▸ invertRange_of_outOfRange hout⟩

theorem flip_eq_error_iff (x : Bits) (i : Int) (c : Cause) :
    flip x i = .error c ↔ c = .flipRange ∧ (i < 0 ∨ (x.length : Int) ≤ i) :=
  ⟨flip_error, fun ⟨hc, hout⟩ => hc ▸ flip_of_outOfRange hout⟩

theorem shrink_eq_error_iff (x : Bits) (k : Nat) (c : Cause) :
    shrink x k = .error c ↔ c = .shrinkRange ∧ x.length < k :=
  ⟨shrink_error, fun ⟨hc, hlt⟩ => hc ▸ shrink_of_lt hlt⟩

/-- The condition of the row DEC, as `decrement` tests it. -/
theorem decrementFails_iff (z : DecZero) (x : Bits) :
    DecrementFails z x ↔ true ∉ x ∧ (z = .error ∨ x.length = 0) := by
  simp [DecrementFails]

theorem decrement_eq_error_iff (z : DecZero) (x : Bits) (c : Cause) :
    decrement z x = .error c ↔ c = .decZero ∧ DecrementFails z x := by
  rw [decrementFails_iff]
  exact ⟨decrement_error, fun ⟨hc, hnone, hz⟩ => hc ▸ decrement_eq_error hnone hz⟩

/-- A failing decrement fails the whole sequence. -/
theorem subtractConstant_eq_error_of_lt {z : DecZero} {x y : Bits} {j k : Nat} (hlt : j < k)
    (hj : subtractConstant z x j = .ok y) (hfails : DecrementFails z y) : subtractConstant z x k = .error .decZero := by
  obtain ⟨m, rfl⟩ := Nat.exists_eq_add_of_lt hlt
  have hsucc : subtractConstant z x (j + 1) = .error .decZero := by
    rw [subtractConstant, hj]
    exact (decrement_eq_error_iff z y _).mpr ⟨rfl, hfails⟩
  rw [add_right_comm, subtractConstant_add, hsucc]
  rfl

theorem subtractConstant_eq_error_iff (z : DecZero) (x : Bits) (k : Nat) (c : Cause) :
    subtractConstant z x k = .error c ↔
      c = .decZero ∧ ∃ (j : Nat) (y : Bits), j < k ∧ subtractConstant z x j = .ok y ∧ DecrementFails z y := by
  constructor
  · intro h
    obtain ⟨hc, j, y, hlt, hj, hfails⟩ := subtractConstant_error h
    exact ⟨hc, j, y, hlt, hj, (decrementFails_iff z y).mpr hfails⟩
  · rintro ⟨rfl, j, y, hlt, hj, hfails⟩
    exact subtractConstant_eq_error_of_lt hlt hj hfails

/-- At the default a subtraction fails exactly past the value. -/
theorem subtractConstant_error_eq_error_iff (x : Bits) (k : Nat) :
    subtractConstant .error x k = .error .decZero ↔ val x < k := by
  refine ⟨fun h => ?_, fun hlt => subtractConstant_eq_error hlt (.inl rfl)⟩
  by_contra hle
  obtain ⟨r, hr, -⟩ := exists_subtractConstant_eq_ok .error (not_lt.mp hle)
  rw [hr] at h
  cases h

theorem countOperand_map_eq_error_iff (n : Int) (f : Nat → Bits) (c : Cause) :
    (countOperand n).map f = .error c ↔ c = .negCount ∧ n < 0 := by
  refine ⟨countOperand_map_error, ?_⟩
  rintro ⟨rfl, hneg⟩
  rw [countOperand_of_neg hneg]
  rfl

theorem countOperand_bind_eq_error_iff (n : Int) (f : Nat → Except Cause Bits) (c : Cause) :
    (countOperand n).bind f = .error c ↔ (c = .negCount ∧ n < 0) ∨ (0 ≤ n ∧ f n.toNat = .error c) := by
  refine ⟨countOperand_bind_error, ?_⟩
  rintro (⟨rfl, hneg⟩ | ⟨hnonneg, hf⟩)
  · rw [countOperand_of_neg hneg]
    rfl
  · obtain ⟨k, rfl⟩ := Int.eq_ofNat_of_zero_le hnonneg
    rw [countOperand_natCast]
    exact hf

/-! ### When each command fails -/

@[simp] theorem State.failed_responses (s : State) (k : Kind) (c : Cause) :
    (s.failed k c).responses = s.responses ++ [.error k c] := rfl

/-- A command that answers ok has not failed. -/
theorem next_ne_failed {s t : State} {k : Kind} {c : Cause} (hresp : t.responses = s.responses ++ [.ok]) :
    (.next t : Out) ≠ .next (s.failed k c) := by
  intro h
  cases h
  simp at hresp

/-- A command that writes a vector fails exactly if its source function does. -/
theorem retireV_eq_failed_iff (z : DecZero) (d : VReg) (r : Except Cause Bits) (s : State) (c : Cause) :
    retireV (.unbounded z) d r s = .next (s.failed .domainError c) ↔ r = .error c := by
  cases r with
  | error c' =>
    rw [retireV_unbounded_error]
    constructor
    · intro h
      have hresp := congrArg State.responses (Host.Outcome.next.inj h)
      simpa using hresp
    · rintro ⟨⟩
      rfl
  | ok x => exact iff_of_false (next_ne_failed rfl) nofun

/-- SUBK fails on a negative count, and where its sequence of decrements does. -/
theorem execWith_subk_eq_failed_iff (z : DecZero) (d a : VReg) (b : SReg) (s : State) (c : Cause) :
    execWith (.unbounded z) (.subk d a b) s = .next (s.failed .domainError c) ↔
      (c = .negCount ∧ s.readS b < 0) ∨
        (0 ≤ s.readS b ∧ subtractConstant z (s.readV a) (s.readS b).toNat = .error c) := by
  rw [execWith_subk, retireV_eq_failed_iff, countOperand_bind_eq_error_iff]

/-- The table of R141, row by row. -/
theorem execWith_eq_failed_iff_raisesDomain (z : DecZero) (i : Instr) (s : State) (c : Cause) :
    execWith (.unbounded z) i s = .next (s.failed .domainError c) ↔ RaisesDomain (.unbounded z) i c s := by
  cases i with
  | toint | tobytes | frombytes | inc | append | concat | trimend | reverse | hweight | equals | len | decode | clrerr =>
    exact iff_of_false (next_ne_failed rfl) not_false
  | fromint d a f => exact (retireV_eq_failed_iff z d _ s c).trans (fromInteger_eq_error_iff _ f c)
  | encode d a => exact (retireV_eq_failed_iff z d _ s c).trans (compactEncode_eq_error_iff _ c)
  | slice d a b k => exact (retireV_eq_failed_iff z d _ s c).trans (slice_eq_error_iff _ _ _ c)
  | invr d a b k => exact (retireV_eq_failed_iff z d _ s c).trans (invertRange_eq_error_iff _ _ _ c)
  | flip d a b => exact (retireV_eq_failed_iff z d _ s c).trans (flip_eq_error_iff _ _ c)
  | grow d a b => exact (retireV_eq_failed_iff z d _ s c).trans (countOperand_map_eq_error_iff _ _ c)
  | addk d a b => exact (retireV_eq_failed_iff z d _ s c).trans (countOperand_map_eq_error_iff _ _ c)
  | dec d a => exact (retireV_eq_failed_iff z d _ s c).trans (decrement_eq_error_iff z _ c)
  | shrink d a b =>
    refine ((retireV_eq_failed_iff z d _ s c).trans (countOperand_bind_eq_error_iff _ _ c)).trans (or_congr_right ?_)
    rw [shrink_eq_error_iff, and_left_comm]
    exact and_congr_right fun _ => by omega
  | subk d a b =>
    refine (execWith_subk_eq_failed_iff z d a b s c).trans (or_congr_right ?_)
    simp only [subtractConstant_eq_error_iff, Int.lt_toNat]
    refine ⟨fun ⟨_, h⟩ => h, fun h => ⟨?_, h⟩⟩
    obtain ⟨-, j, -, hlt, -⟩ := h
    exact j.cast_nonneg.trans hlt.le

/-- Settles O19: the table holds row by row, and with DEC_ZERO = Error a decrement fails exactly past the value. -/
theorem domainErrorExactlyByTable : Obligations.DomainErrorExactlyByTable := by
  unfold Obligations.DomainErrorExactlyByTable
  refine ⟨execWith_eq_failed_iff_raisesDomain, fun s d a b hnonneg => ?_⟩
  rw [exec_eq_execWith_unbounded, execWith_subk_eq_failed_iff, subtractConstant_error_eq_error_iff, Int.lt_toNat]
  simp [hnonneg]

end Sys2Proof.Machine

/-! Proofs of the family 70_reset_and_hazards.md. That a command is answered by a next state is R3 at the unbounded capacities;
that this state holds one response more is asked of the shared ends, each of which responds once. -/

namespace Sys2Proof.Machine

/-! ### Every command and every step is answered (70_reset_and_hazards.md R164) -/

/-- At any parameters a command that is not refused responds once, with ok or an error. -/
theorem responses_of_execWith_eq_next {p : Params} {i : Instr} {s t : State} (h : execWith p i s = .next t) :
    t.responses = s.responses ++ [.ok] ∨ ∃ k c, t.responses = s.responses ++ [.error k c] := by
  rcases execWith_cases p.decZero i s with
    ⟨d, r, -, -, -, -, -, e⟩ | ⟨d, n, -, -, -, -, e⟩ | ⟨ys, -, -, -, -, e⟩ | ⟨-, e⟩
  · rw [e p rfl] at h
    rcases retireV_cases p d r s with ⟨c, -, e⟩ | ⟨x, -, -, e⟩ | ⟨x, -, -, e⟩ <;> rw [e] at h <;> cases h
    · exact .inr ⟨_, _, s.raise_responses _ c⟩
    · exact .inl ((s.writeV d x).respond_responses .ok)
  · rw [e p rfl] at h
    rcases retireS_cases p d n s with ⟨-, e⟩ | ⟨-, e⟩ <;> rw [e] at h <;> cases h
    exact .inl ((s.writeS d n).respond_responses .ok)
  · rw [e p rfl] at h
    rcases retireB_cases p ys s with ⟨-, e⟩ | ⟨-, e⟩ <;> rw [e] at h <;> cases h
    exact .inl ((s.writeB ys).respond_responses .ok)
  · rw [e p] at h
    cases h
    exact .inl (s.clearStatus.respond_responses .ok)

/-- A word on the command port is answered by a next state: the legal command's, or that of the error raised. -/
theorem command_answers_next (w : Word) (s : State) : ∃ t, command exec w s = .next t := by
  rcases command_cases exec w s with ⟨i, -, e⟩ | ⟨_, -, e⟩ <;> rw [e]
  · exact exec_answers_next i s
  · exact ⟨_, rfl⟩

/-- At the default parameters every move of the host is answered by a next state: a write always fits. -/
theorem perform_answers_next (m : HostMove) (s : State) : ∃ t, perform Config.params exec m s = .next t := by
  cases m with
  | command w => exact command_answers_next w s
  | writeV i x => exact ⟨s.writeV i x, by simp [perform]⟩
  | writeS i n => exact ⟨s.writeS i n, by simp [perform]⟩
  | writeB ys => exact ⟨s.writeB ys, by simp [perform]⟩
  | readV | readS | readB | readStatus | reset => exact ⟨_, rfl⟩

/-- No step is refused at the default parameters: the engine idles or performs the host's next move. -/
theorem step_answers_next (s : State) : ∃ t, step s = .next t := by
  rw [step]
  rcases engineStep_cases Config.params exec s with ⟨-, e⟩ | ⟨m, rest, -, e⟩ <;> rw [e]
  · exact ⟨s, rfl⟩
  · exact perform_answers_next m _

/-- Settles O9: a command is answered by a next state and responds once at its shared end; so every step is answered too. -/
theorem everyCommandTerminates : Obligations.EveryCommandTerminates := by
  unfold Obligations.EveryCommandTerminates
  refine ⟨fun i s => ?_, step_answers_next⟩
  obtain ⟨t, ht⟩ := exec_answers_next i s
  exact ⟨t, ht, responses_of_execWith_eq_next ((execWith_default i s).trans ht)⟩

end Sys2Proof.Machine

/-! Proofs of the rules about the whole machine. Said once: how a command can end and what the host's next move does. From these
two inversion lemmas follow what every step keeps (the invariant, the capacities), what changes STATUS, and what one run of any
length leaves in it. -/

namespace Sys2Proof.Machine

/-- Settles O2: the fields of a command's word are the command's own, and its row builds the command from them. -/
theorem decodeOfEncodeIsIdentity : Obligations.DecodeOfEncodeIsIdentity := by
  unfold Obligations.DecodeOfEncodeIsIdentity
  exact decode_encode

/-! ### How a command can end -/

/-- The next states a command can end in, from the state `s` (30_encoding.md R47, 60_exceptions.md R145). -/
inductive EndsIn (p : Params) (i : Instr) (s : State) : State → Prop where
  | failed (c : Cause) (hcause : c ≠ .none) : EndsIn p i s (s.raise .domainError c)
  | wroteV (d : VReg) (x : Bits) (hdest : destV i = some d) (hfits : fitsV p x = true) :
      EndsIn p i s ((s.writeV d x).respond .ok)
  | wroteS (d : SReg) (n : Int) (hdest : destS i = some d) (hfits : fitsS p n = true) :
      EndsIn p i s ((s.writeS d n).respond .ok)
  | wroteB (ys : List Byte) (hdest : storesB i = true) (hfits : fitsB p ys = true) :
      EndsIn p i s ((s.writeB ys).respond .ok)
  | cleared (hclrerr : i = .clrerr) : EndsIn p i s (s.clearStatus.respond .ok)

theorem endsIn_of_execWith_eq_next {p : Params} {i : Instr} {s t : State} (h : execWith p i s = .next t) :
    EndsIn p i s t := by
  rcases execWith_cases p.decZero i s with
    ⟨d, r, hdest, -, -, -, hcause, e⟩ | ⟨d, n, -, hdest, -, -, e⟩ | ⟨ys, -, -, hdest, -, e⟩ | ⟨hclrerr, e⟩
  · rw [e p rfl] at h
    rcases retireV_cases p d r s with ⟨c, hc, e⟩ | ⟨x, -, hfits, e⟩ | ⟨x, -, -, e⟩ <;> rw [e] at h <;> cases h
    · exact .failed c (hcause c hc)
    · exact .wroteV d x hdest hfits
  · rw [e p rfl] at h
    rcases retireS_cases p d n s with ⟨hfits, e⟩ | ⟨-, e⟩ <;> rw [e] at h <;> cases h
    exact .wroteS d n hdest hfits
  · rw [e p rfl] at h
    rcases retireB_cases p ys s with ⟨hfits, e⟩ | ⟨-, e⟩ <;> rw [e] at h <;> cases h
    exact .wroteB ys hdest hfits
  · rw [e p] at h
    cases h
    exact .cleared hclrerr

/-! ### What the host's next move does -/

/-- The next states one move of the host can lead to, from the state `s` without that move (10_state.md R19, R21). -/
inductive MovesTo (p : Params) (s : State) : HostMove → State → Prop where
  | executed {w : Word} {i : Instr} {t : State} (hdec : decode w = .ok i) (hexec : execWith p i s = .next t) :
      MovesTo p s (.command w) t
  | rejected (w : Word) : MovesTo p s (.command w) (s.raise .illegalCommand .none)
  | wroteV (i : VReg) (x : Bits) (hfits : fitsV p x = true) : MovesTo p s (.writeV i x) (s.writeV i x)
  | wroteS (i : SReg) (n : Int) (hfits : fitsS p n = true) : MovesTo p s (.writeS i n) (s.writeS i n)
  | wroteB (ys : List Byte) (hfits : fitsB p ys = true) : MovesTo p s (.writeB ys) (s.writeB ys)
  | handed {m : HostMove} (hm : ∀ w, m ≠ .command w) (r : Readout) : MovesTo p s m (s.hand r)
  | reset : MovesTo p s .reset s.resetEngine

theorem movesTo_of_command_eq_next {p : Params} {w : Word} {s t : State} (h : command (execWith p) w s = .next t) :
    MovesTo p s (.command w) t := by
  rcases command_cases (execWith p) w s with ⟨i, hdec, e⟩ | ⟨_, -, e⟩ <;> rw [e] at h
  · exact .executed hdec h
  · cases h
    exact .rejected w

theorem movesTo_of_perform_eq_next {p : Params} {m : HostMove} {s t : State}
    (h : perform p (execWith p) m s = .next t) : MovesTo p s m t := by
  cases m with
  | command w => exact movesTo_of_command_eq_next h
  | writeV i x =>
    simp only [perform] at h
    split at h <;> cases h
    exact .wroteV i x ‹_›
  | writeS i n =>
    simp only [perform] at h
    split at h <;> cases h
    exact .wroteS i n ‹_›
  | writeB ys =>
    simp only [perform] at h
    split at h <;> cases h
    exact .wroteB ys ‹_›
  | readV | readS | readB | readStatus =>
    cases h
    exact .handed (by simp) _
  | reset =>
    cases h
    exact .reset

/-- Everything a step can do: nothing with no move left, else the host's next move on the state without it. -/
theorem stepWith_inversion {p : Params} {s t : State} (h : stepWith p s = .next t) :
    (s.inputs = [] ∧ t = s) ∨
      ∃ m rest, s.inputs = m :: rest ∧ MovesTo p { s with inputs := rest } m t := by
  rcases engineStep_cases p (execWith p) s with ⟨hidle, e⟩ | ⟨m, rest, hnext, e⟩ <;> rw [stepWith, e] at h
  · cases h
    exact .inl ⟨hidle, rfl⟩
  · exact .inr ⟨m, rest, hnext, movesTo_of_perform_eq_next h⟩

theorem step_inversion {s t : State} (h : step s = .next t) :
    (s.inputs = [] ∧ t = s) ∨
      ∃ m rest, s.inputs = m :: rest ∧ MovesTo Config.params { s with inputs := rest } m t :=
  stepWith_inversion ((stepWith_default s).trans h)

/-! ### The invariant (20_memory.md R30, 10_state.md R16): the buffer and STATUS alone matter -/

theorem State.wf_iff (s : State) : s.wf = true ↔ s.buf.wf = true ∧ s.status.wf = true := Bool.and_eq_true_iff

/-- The latch keeps STATUS one that R16 allows, if the error to latch is one. -/
theorem Status.wf_latch {st : Status} {k : Kind} {c : Cause} (hst : st.wf = true) (herr : (Status.mk k c).wf = true) :
    (st.latch k c).wf = true := by
  unfold Status.latch
  split
  · exact herr
  · exact hst

/-- DomainError has a cause that is not 0 (60_exceptions.md R142). -/
theorem Status.wf_domainError {c : Cause} (h : c ≠ .none) : (Status.mk .domainError c).wf = true := by
  simpa [Status.wf] using h

theorem State.wf_raise {s : State} {k : Kind} {c : Cause} (hs : s.wf = true) (herr : (Status.mk k c).wf = true) :
    (s.raise k c).wf = true := by
  obtain ⟨hbuf, hstatus⟩ := s.wf_iff.mp hs
  exact (State.wf_iff _).mpr ⟨hbuf, Status.wf_latch hstatus herr⟩

theorem State.wf_writeB {s : State} (hs : s.wf = true) (ys : List Byte) : (s.writeB ys).wf = true := by
  obtain ⟨-, hstatus⟩ := s.wf_iff.mp hs
  exact (State.wf_iff _).mpr ⟨s.writeB_wf ys, hstatus⟩

theorem State.wf_clearStatus {s : State} (hs : s.wf = true) : s.clearStatus.wf = true := by
  obtain ⟨hbuf, -⟩ := s.wf_iff.mp hs
  exact (State.wf_iff _).mpr ⟨hbuf, rfl⟩

/-- Settles O10: the one-byte buffer is canonical, and STATUS is 0. -/
theorem resetMeetsInvariant : Obligations.ResetMeetsInvariant := by
  unfold Obligations.ResetMeetsInvariant
  exact (State.wf_iff _).mpr ⟨State.reset_buf_wf, rfl⟩

/-- Every end of a command keeps the invariant; a write of a register and the response do not touch what it speaks of. -/
theorem wf_of_endsIn {p : Params} {i : Instr} {s t : State} (hs : s.wf = true) (h : EndsIn p i s t) : t.wf = true := by
  cases h with
  | failed c hcause => exact State.wf_raise hs (Status.wf_domainError hcause)
  | wroteV | wroteS => exact hs
  | wroteB ys => exact State.wf_writeB hs ys
  | cleared => exact State.wf_clearStatus (s := s) hs

theorem wf_of_movesTo {p : Params} {s t : State} {m : HostMove} (hs : s.wf = true) (h : MovesTo p s m t) :
    t.wf = true := by
  cases h with
  | executed _ hexec => exact wf_of_endsIn hs (endsIn_of_execWith_eq_next hexec)
  | rejected => exact State.wf_raise hs rfl
  | wroteV | wroteS | handed => exact hs
  | wroteB ys => exact State.wf_writeB hs ys
  | reset => exact resetMeetsInvariant

/-- Settles O11: an error raised is one R16 allows, and the buffer is only ever written whole. -/
theorem stepKeepsInvariant : Obligations.StepKeepsInvariant := by
  unfold Obligations.StepKeepsInvariant
  intro s t hs hstep
  rcases step_inversion hstep with ⟨-, rfl⟩ | ⟨m, rest, -, hmove⟩
  · exact hs
  · exact wf_of_movesTo (s := { s with inputs := rest }) hs hmove

/-! ### The capacities (00_scope.md R3): a value is written only where it fits -/

theorem fits_of_endsIn {p : Params} {i : Instr} {s t : State} (hs : s.Fits p) (h : EndsIn p i s t) : t.Fits p := by
  cases h with
  | failed | cleared => exact hs
  | wroteV d x _ hfits => exact (State.fits_writeV_iff hs d x).mpr hfits
  | wroteS d n _ hfits => exact (State.fits_writeS_iff hs d n).mpr hfits
  | wroteB ys _ hfits => exact (State.fits_writeB_iff hs ys).mpr hfits

theorem fits_of_movesTo {p : Params} {s t : State} {m : HostMove} (hreset : State.reset.Fits p) (hs : s.Fits p)
    (h : MovesTo p s m t) : t.Fits p := by
  cases h with
  | executed _ hexec => exact fits_of_endsIn hs (endsIn_of_execWith_eq_next hexec)
  | rejected | handed => exact hs
  | wroteV i x hfits => exact (State.fits_writeV_iff hs i x).mpr hfits
  | wroteS i n hfits => exact (State.fits_writeS_iff hs i n).mpr hfits
  | wroteB ys hfits => exact (State.fits_writeB_iff hs ys).mpr hfits
  | reset => exact hreset

/-- Settles O12: commands and the host's writes check what they write; reset writes the reset values. -/
theorem stepKeepsCapacities : Obligations.StepKeepsCapacities := by
  unfold Obligations.StepKeepsCapacities
  intro p s t hreset hs hstep
  rcases stepWith_inversion hstep with ⟨-, rfl⟩ | ⟨m, rest, -, hmove⟩
  · exact hs
  · exact fits_of_movesTo (s := { s with inputs := rest }) hreset hs hmove

/-! ### The step, the host's moves and reset, move by move -/

theorem step_of_inputs_nil {s : State} (h : s.inputs = []) : step s = .next s := by
  simp [step, engineStep, h]

theorem step_of_inputs_cons {s : State} {m : HostMove} {rest : List HostMove} (h : s.inputs = m :: rest) :
    step s = perform Config.params exec m { s with inputs := rest } := by
  simp [step, engineStep, h]

/-- Settles O6: the command port hands the decoded command to `exec`. -/
theorem stepRunsDecodedCommand : Obligations.StepRunsDecodedCommand := by
  unfold Obligations.StepRunsDecodedCommand
  intro s w rest i hnext hdec
  rw [step_command hnext, command, hdec]

/-- Settles O7: each move is performed on the state without it, and every value fits the default capacities. -/
theorem hostAccessesBetweenCommands : Obligations.HostAccessesBetweenCommands := by
  unfold Obligations.HostAccessesBetweenCommands
  intro s rest
  exact ⟨step_of_inputs_nil,
    fun _ _ h => step_of_inputs_cons h, fun _ _ h => step_of_inputs_cons h, fun _ h => step_of_inputs_cons h,
    fun _ h => step_of_inputs_cons h, fun _ h => step_of_inputs_cons h, step_of_inputs_cons, step_of_inputs_cons⟩

/-- Settles O8: an asserted reset takes every field but the model's own lists from the state after reset. -/
theorem resetClearsStatus : Obligations.ResetClearsStatus := by
  unfold Obligations.ResetClearsStatus
  refine ⟨⟨rfl, rfl, rfl⟩, fun s rest hnext => ?_⟩
  exact ⟨({ s with inputs := rest } : State).resetEngine, step_of_inputs_cons hnext, rfl, rfl, rfl, rfl⟩

/-! ### STATUS and its word (10_state.md R16, 60_exceptions.md R142) -/

theorem Kind.code_lt (k : Kind) : k.code < 3 := by cases k <;> decide

theorem Cause.code_lt (c : Cause) : c.code < 8 := by cases c <;> decide

/-- Both codes fit their fields, so nothing of the word is cut off. -/
theorem Status.toNat_word (st : Status) : st.word.toNat = st.kind.code + 4 * st.cause.code := by
  have hkind := st.kind.code_lt
  have hcause := st.cause.code_lt
  rw [Status.word, BitVec.toNat_ofNat]
  omega

/-- Without DomainError CAUSE is 0. -/
theorem Status.cause_eq_none {st : Status} (hwf : st.wf = true) (hkind : st.kind ≠ .domainError) : st.cause = .none := by
  have hother : (st.kind == .domainError) = false := by simpa using hkind
  simpa [Status.wf, hother] using hwf

/-- Settles O14: the fields of the word are the two codes, since these fit. -/
theorem statusWordLayout : Obligations.StatusWordLayout := by
  unfold Obligations.StatusWordLayout
  have hlayout (st : Status) : st.word.toNat % 4 = st.kind.code ∧ st.word.toNat / 4 % 16 = st.cause.code ∧
      st.word.toNat / 64 = 0 ∧ st.kind.code < 3 ∧ st.cause.code < 8 := by
    have hkind := st.kind.code_lt
    have hcause := st.cause.code_lt
    rw [st.toNat_word]
    omega
  refine ⟨hlayout, fun st hwf hkind => ?_, rfl, rfl⟩
  obtain ⟨-, hcause, -⟩ := hlayout st
  have hnotDomain : st.kind ≠ .domainError := by
    rcases hkind with h | h <;> simp [h]
  rw [hcause, Status.cause_eq_none hwf hnotDomain]
  rfl

/-! ### What a command leaves of the model's lists, and its one response -/

section
variable {p : Params} {i : Instr} {s t : State}

theorem inputs_of_endsIn (h : EndsIn p i s t) : t.inputs = s.inputs := by cases h <;> rfl

theorem readouts_of_endsIn (h : EndsIn p i s t) : t.readouts = s.readouts := by cases h <;> rfl

/-- A command that is not refused responds once. -/
theorem exists_response_of_execWith (h : execWith p i s = .next t) : ∃ r, t.responses = s.responses ++ [r] := by
  rcases responses_of_execWith_eq_next h with hok | ⟨k, c, herr⟩
  · exact ⟨.ok, hok⟩
  · exact ⟨.error k c, herr⟩

end

/-- Settles O16: a command word is answered once, by the command or by IllegalCommand; no other move responds. -/
theorem oneResponsePerCommand : Obligations.OneResponsePerCommand := by
  unfold Obligations.OneResponsePerCommand
  intro s t hstep
  rcases step_inversion hstep with ⟨hidle, rfl⟩ | ⟨m, rest, hnext, hmove⟩
  · simp [hidle]
  · rw [hnext]
    cases hmove with
    | executed _ hexec =>
      have hresp := exists_response_of_execWith hexec
      exact ⟨fun _ => hresp, fun hno => absurd ⟨_, _, rfl⟩ hno⟩
    | rejected => exact ⟨fun _ => ⟨_, State.raise_responses _ _ _⟩, fun hno => absurd ⟨_, _, rfl⟩ hno⟩
    | wroteV | wroteS | wroteB | reset => exact ⟨nofun, fun _ => rfl⟩
    | handed hm => exact ⟨fun ⟨w, _, hw⟩ => absurd (List.cons.inj hw).1 (hm w), fun _ => rfl⟩

/-! ### What changes STATUS (10_state.md R16, 60_exceptions.md R145, R150) -/

/-- The latch changes STATUS only if nothing is latched, and then to the error. -/
theorem Status.latch_of_ne {st : Status} {k : Kind} {c : Cause} (h : st.latch k c ≠ st) :
    st.kind = .none ∧ st.latch k c = { kind := k, cause := c } := by
  unfold Status.latch at h ⊢
  split at h
  · exact ⟨‹_›, if_pos ‹_›⟩
  · exact absurd rfl h

/-- STATUS was 0 and is now the error that is the one new response. -/
def FirstErrorLatched (s t : State) : Prop :=
  s.status.kind = .none ∧ ∃ k c, t.responses = s.responses ++ [.error k c] ∧ t.status = { kind := k, cause := c }

theorem firstErrorLatched_raise {s : State} {k : Kind} {c : Cause} (h : (s.raise k c).status ≠ s.status) :
    FirstErrorLatched s (s.raise k c) := by
  obtain ⟨hnone, hlatch⟩ := Status.latch_of_ne h
  exact ⟨hnone, k, c, rfl, hlatch⟩

/-- A command changes STATUS as CLRERR or by its error. -/
theorem status_change_of_endsIn {p : Params} {i : Instr} {s t : State} (h : EndsIn p i s t) (hne : t.status ≠ s.status) :
    (i = .clrerr ∧ t.status = .clear) ∨ FirstErrorLatched s t := by
  cases h with
  | failed => exact .inr (firstErrorLatched_raise hne)
  | wroteV | wroteS | wroteB => exact absurd rfl hne
  | cleared hclrerr => exact .inl ⟨hclrerr, rfl⟩

/-- Only CLRERR's word is read as CLRERR. -/
theorem eq_word_of_decode_clrerr {w : Word} (h : decode w = .ok .clrerr) : w = 0x00000017 :=
  (encode_of_decode_eq_ok h).symm.trans encode_clrerr

/-- Settles O15: of the host's moves only a command and reset touch STATUS, and of the commands CLRERR and a failed one. -/
theorem statusChangesOnlyByErrorClrerrReset : Obligations.StatusChangesOnlyByErrorClrerrReset := by
  unfold Obligations.StatusChangesOnlyByErrorClrerrReset
  intro s t hstep hne
  rcases step_inversion hstep with ⟨-, rfl⟩ | ⟨m, rest, hnext, hmove⟩
  · exact absurd rfl hne
  · cases hmove with
    | executed hdec hexec =>
      rcases status_change_of_endsIn (endsIn_of_execWith_eq_next hexec) hne with ⟨rfl, hclear⟩ | hlatched
      · exact .inr (.inl ⟨rest, eq_word_of_decode_clrerr hdec ▸ hnext, hclear⟩)
      · exact .inr (.inr hlatched)
    | rejected => exact .inr (.inr (firstErrorLatched_raise hne))
    | wroteV | wroteS | wroteB | handed => exact absurd rfl hne
    | reset => exact .inl ⟨rest, hnext, rfl⟩

/-! ### The latch over a run (60_exceptions.md R145) -/

/-- STATUS after one response: an error is latched, ok changes nothing. -/
def Status.receive (st : Status) : Response → Status
  | .ok => st
  | .error k c => st.latch k c

/-- A latched error stays, whatever responses follow. -/
theorem foldl_receive_of_latched {st : Status} (h : st.kind ≠ .none) (rs : List Response) :
    rs.foldl Status.receive st = st := by
  induction rs with
  | nil => rfl
  | cons r rs ih =>
    have hr : st.receive r = st := by
      cases r with
      | ok => rfl
      | error k c => exact if_neg h
    rw [List.foldl_cons, hr, ih]

/-- From STATUS 0, responses whose errors have a kind leave 0 if all are ok, else the first error. -/
theorem foldl_receive_clear {rs : List Response} (hkind : ∀ c, Response.error .none c ∉ rs) :
    (rs.foldl Status.receive .clear = .clear ∧ ∀ r ∈ rs, r = .ok) ∨
      ∃ before k c after, rs = before ++ .error k c :: after ∧ (∀ r ∈ before, r = .ok) ∧ k ≠ .none ∧
        rs.foldl Status.receive .clear = { kind := k, cause := c } := by
  induction rs with
  | nil => exact .inl ⟨rfl, by simp⟩
  | cons r rs ih =>
    cases r with
    | ok =>
      rcases ih fun c hc => hkind c (.tail _ hc) with ⟨hclear, hall⟩ | ⟨before, k, c, after, rfl, hbefore, hk, hfirst⟩
      · exact .inl ⟨hclear, by simpa using hall⟩
      · exact .inr ⟨.ok :: before, k, c, after, rfl, by simpa using hbefore, hk, hfirst⟩
    | error k c =>
      have hk : k ≠ .none := by
        rintro rfl
        exact hkind c (.head _)
      exact .inr ⟨[], k, c, rs, rfl, by simp, hk, foldl_receive_of_latched (st := { kind := k, cause := c }) hk rs⟩

/-- From `s` to `t` some responses were given, each error with a kind, and STATUS is what they make of it. -/
def Latches (s t : State) : Prop :=
  ∃ rs, t.responses = s.responses ++ rs ∧ t.status = rs.foldl Status.receive s.status ∧
    ∀ c, Response.error .none c ∉ rs

/-- Neither a response nor a change of STATUS. -/
theorem latches_of_unchanged {s t : State} (hresp : t.responses = s.responses) (hstatus : t.status = s.status) :
    Latches s t :=
  ⟨[], by simpa using hresp, hstatus, by simp⟩

/-- An ok response that leaves STATUS. -/
theorem latches_of_ok {s t : State} (hresp : t.responses = s.responses ++ [.ok]) (hstatus : t.status = s.status) :
    Latches s t :=
  ⟨[.ok], hresp, hstatus, by simp⟩

theorem latches_raise (s : State) {k : Kind} (hk : k ≠ .none) (c : Cause) : Latches s (s.raise k c) :=
  ⟨[.error k c], rfl, rfl, by simp [hk.symm]⟩

theorem Latches.trans {s t u : State} (hst : Latches s t) (htu : Latches t u) : Latches s u := by
  obtain ⟨rs, hresp, hstatus, hkind⟩ := hst
  obtain ⟨rs', hresp', hstatus', hkind'⟩ := htu
  refine ⟨rs ++ rs', by rw [hresp', hresp, List.append_assoc], by rw [hstatus', hstatus, List.foldl_append], fun c => ?_⟩
  rw [List.mem_append, not_or]
  exact ⟨hkind c, hkind' c⟩

theorem latches_of_endsIn {p : Params} {i : Instr} {s t : State} (hi : i ≠ .clrerr) (h : EndsIn p i s t) :
    Latches s t := by
  cases h with
  | failed c => exact latches_raise s (by decide) c
  | wroteV | wroteS | wroteB => exact latches_of_ok rfl rfl
  | cleared hclrerr => exact absurd hclrerr hi

/-- A move of the host other than reset and CLRERR's word. -/
def HostMove.KeepsLatch (m : HostMove) : Prop := m ≠ .reset ∧ m ≠ .command 0x00000017

theorem latches_of_movesTo {p : Params} {s t : State} {m : HostMove} (hm : m.KeepsLatch) (h : MovesTo p s m t) :
    Latches s t := by
  obtain ⟨hreset, hclrerr⟩ := hm
  cases h with
  | executed hdec hexec =>
    refine latches_of_endsIn ?_ (endsIn_of_execWith_eq_next hexec)
    rintro rfl
    exact hclrerr (congrArg _ (eq_word_of_decode_clrerr hdec))
  | rejected => exact latches_raise s (by decide) _
  | wroteV | wroteS | wroteB | handed => exact latches_of_unchanged rfl rfl
  | reset => exact absurd rfl hreset

theorem inputs_of_movesTo {p : Params} {s t : State} {m : HostMove} (h : MovesTo p s m t) : t.inputs = s.inputs := by
  cases h with
  | executed _ hexec => exact inputs_of_endsIn (endsIn_of_execWith_eq_next hexec)
  | rejected | wroteV | wroteS | wroteB | handed | reset => rfl

/-- One step: the next move, if there is one, is taken off the list, and what it responds makes STATUS. -/
theorem latches_of_step {s t : State} (hmoves : ∀ m ∈ s.inputs, m.KeepsLatch) (h : step s = .next t) :
    Latches s t ∧ t.inputs ⊆ s.inputs := by
  rcases step_inversion h with ⟨-, rfl⟩ | ⟨m, rest, hnext, hmove⟩
  · exact ⟨latches_of_unchanged rfl rfl, List.Subset.refl _⟩
  · rw [hnext] at hmoves ⊢
    rw [inputs_of_movesTo hmove]
    exact ⟨latches_of_movesTo (s := { s with inputs := rest }) (hmoves m (.head _)) hmove, List.subset_cons_self m rest⟩

/-- A run of one step more starts with that step. -/
theorem run_succ_of_step (M : Host.Core) {s u : M.State} (h : M.step s = .next u) (n : Nat) :
    M.run (n + 1) s = M.run n u := by
  rw [Host.Core.run, h]

/-- Any number of steps. -/
theorem latches_of_run {n : Nat} {s t : State} (hmoves : ∀ m ∈ s.inputs, m.KeepsLatch)
    (h : Sys2Proof.core.run n s = .next t) : Latches s t := by
  induction n generalizing s with
  | zero =>
    cases h
    exact latches_of_unchanged rfl rfl
  | succ n ih =>
    obtain ⟨u, hu⟩ := step_answers_next s
    obtain ⟨hlatch, hsub⟩ := latches_of_step hmoves hu
    have hrun : Sys2Proof.core.run n u = .next t := (run_succ_of_step Sys2Proof.core hu n).symm.trans h
    exact hlatch.trans (ih (fun m hm => hmoves m (hsub hm)) hrun)

/-- Settles O17: STATUS is what the run's responses make of 0, which is the first error among them. -/
theorem latchHoldsFirstErrorOfRun : Obligations.LatchHoldsFirstErrorOfRun := by
  unfold Obligations.LatchHoldsFirstErrorOfRun
  intro n s t hclear hmoves hrun
  obtain ⟨rs, hresp, hstatus, hkind⟩ := latches_of_run hmoves hrun
  rw [hclear] at hstatus
  rw [hstatus]
  exact ⟨rs, hresp, foldl_receive_clear hkind⟩

end Sys2Proof.Machine

/-! Proofs of the frames: what a command leaves of the registers and the buffer, what it depends on, and how an address of the
buffer reads. -/

namespace Sys2Proof.Machine

/-! ### What a command leaves unchanged (10_state.md R12, 30_encoding.md R47) -/

section
variable {p : Params} {i : Instr} {s t : State}

/-- A vector register that is not the destination keeps its content. -/
theorem readV_of_endsIn (h : EndsIn p i s t) {j : VReg} (hj : destV i ≠ some j) : t.readV j = s.readV j := by
  cases h with
  | wroteV d x hdest =>
    have hne : j ≠ d := by
      rintro rfl
      exact hj hdest
    simp [hne]
  | failed | wroteS | wroteB | cleared => rfl

/-- A scalar register that is not the destination keeps its content. -/
theorem readS_of_endsIn (h : EndsIn p i s t) {j : SReg} (hj : destS i ≠ some j) : t.readS j = s.readS j := by
  cases h with
  | wroteS d n hdest =>
    have hne : j ≠ d := by
      rintro rfl
      exact hj hdest
    simp [hne]
  | failed | wroteV | wroteB | cleared => rfl

/-- Only a command that stores to the buffer touches it. -/
theorem buf_of_endsIn (h : EndsIn p i s t) (hstores : storesB i = false) : t.buf = s.buf := by
  cases h with
  | wroteB ys hdest => simp [hdest] at hstores
  | failed | wroteV | wroteS | cleared => rfl

/-- One response, and STATUS stays if it is ok and the command is not CLRERR. -/
theorem response_and_status_of_endsIn (h : EndsIn p i s t) :
    ∃ r, t.responses = s.responses ++ [r] ∧ (r = .ok → i ≠ .clrerr → t.status = s.status) := by
  cases h with
  | failed c => exact ⟨.error .domainError c, rfl, nofun⟩
  | wroteV | wroteS | wroteB => exact ⟨.ok, rfl, fun _ _ => rfl⟩
  | cleared hclrerr => exact ⟨.ok, rfl, fun _ hi => absurd hclrerr hi⟩

end

/-- Settles O20: each end of a command touches its own destination, the responses, and STATUS. -/
theorem everyCommandWritesOnlyItsDestination : Obligations.EveryCommandWritesOnlyItsDestination := by
  unfold Obligations.EveryCommandWritesOnlyItsDestination
  intro i s t hexec
  have hend : EndsIn Config.params i s t := endsIn_of_execWith_eq_next ((execWith_default i s).trans hexec)
  refine ⟨fun j => readV_of_endsIn hend, fun j => readS_of_endsIn hend, fun hstores => ?_, inputs_of_endsIn hend,
    readouts_of_endsIn hend, response_and_status_of_endsIn hend⟩
  rw [buf_of_endsIn hend hstores]
  exact ⟨rfl, fun _ => rfl⟩

/-! ### What a command depends on (10_state.md R18, 70_reset_and_hazards.md R161) -/

/-- Two answers to one command, from `s` and from `s'`: the same response, and if it is ok the same value at the
destination. -/
def AnswersAlike (i : Instr) (s s' : State) (o o' : Out) : Prop :=
  ∃ t t' r, o = .next t ∧ o' = .next t' ∧ t.responses = s.responses ++ [r] ∧ t'.responses = s'.responses ++ [r] ∧
    (r = .ok → (∀ d, destV i = some d → t.readV d = t'.readV d) ∧ (∀ d, destS i = some d → t.readS d = t'.readS d) ∧
      (storesB i = true → t.buf = t'.buf))

section
variable {i : Instr} (s s' : State)

/-- The same vector for the same register. -/
theorem answersAlike_wroteV {d : VReg} (hV : destV i = some d) (hS : destS i = none) (hB : storesB i = false)
    {x x' : Bits} (hx : x = x') : AnswersAlike i s s' (.next (s.wroteV d x)) (.next (s'.wroteV d x')) := by
  subst hx
  exact ⟨s.wroteV d x, s'.wroteV d x, .ok, rfl, rfl, rfl, rfl, fun _ => by simp [hV, hS, hB]⟩

/-- The same number for the same register. -/
theorem answersAlike_wroteS {d : SReg} (hV : destV i = none) (hS : destS i = some d) (hB : storesB i = false)
    {n n' : Int} (hn : n = n') : AnswersAlike i s s' (.next (s.wroteS d n)) (.next (s'.wroteS d n')) := by
  subst hn
  exact ⟨s.wroteS d n, s'.wroteS d n, .ok, rfl, rfl, rfl, rfl, fun _ => by simp [hV, hS, hB]⟩

/-- The same bytes for the buffer. -/
theorem answersAlike_wroteB (hV : destV i = none) (hS : destS i = none) {ys ys' : List Byte} (hys : ys = ys') :
    AnswersAlike i s s' (.next (s.wroteB ys)) (.next (s'.wroteB ys')) := by
  subst hys
  exact ⟨s.wroteB ys, s'.wroteB ys, .ok, rfl, rfl, rfl, rfl, fun _ => ⟨by simp [hV], by simp [hS], fun _ => rfl⟩⟩

/-- The same result, be it an error or a vector for the same register. -/
theorem answersAlike_retireV {d : VReg} (hV : destV i = some d) (hS : destS i = none) (hB : storesB i = false)
    {r r' : Except Cause Bits} (hr : r = r') :
    AnswersAlike i s s' (retireV Config.params d r s) (retireV Config.params d r' s') := by
  subst hr
  cases r with
  | error c => exact ⟨_, _, .error .domainError c, rfl, rfl, rfl, rfl, nofun⟩
  | ok x => exact answersAlike_wroteV s s' hV hS hB rfl

end

/-- States that agree on a command's sources give its source function the same arguments. -/
theorem answersAlike_exec {i : Instr} {s s' : State} (hV : ∀ j ∈ readsV i, s.readV j = s'.readV j)
    (hS : ∀ j ∈ readsS i, s.readS j = s'.readS j) (hB : loadsB i = true → s.readB = s'.readB) :
    AnswersAlike i s s' (exec i s) (exec i s') := by
  cases i with
  | inc d a | reverse d a | append d a f | trimend d a f =>
    exact answersAlike_wroteV s s' rfl rfl rfl (by rw [hV a (.head _)])
  | dec d a => exact answersAlike_retireV s s' rfl rfl rfl (by rw [hV a (.head _)])
  | concat d a b => exact answersAlike_wroteV s s' rfl rfl rfl (by rw [hV a (.head _), hV b (.tail _ (.head _))])
  | addk d a b | subk d a b | grow d a b | shrink d a b | flip d a b =>
    exact answersAlike_retireV s s' rfl rfl rfl (by rw [hV a (.head _), hS b (.head _)])
  | slice d a b c | invr d a b c =>
    exact answersAlike_retireV s s' rfl rfl rfl
      (by rw [hV a (.head _), hS b (.head _), hS c (.tail _ (.head _))])
  | fromint d a f | encode d a => exact answersAlike_retireV s s' rfl rfl rfl (by rw [hS a (.head _)])
  | frombytes d => exact answersAlike_wroteV s s' rfl rfl rfl (by rw [hB rfl])
  | toint d a | hweight d a | len d a | decode d a =>
    exact answersAlike_wroteS s s' rfl rfl rfl (by rw [hV a (.head _)])
  | equals d a b => exact answersAlike_wroteS s s' rfl rfl rfl (by rw [hV a (.head _), hV b (.tail _ (.head _))])
  | tobytes a => exact answersAlike_wroteB s s' rfl rfl (by rw [hV a (.head _)])
  | clrerr => exact ⟨_, _, .ok, rfl, rfl, rfl, rfl, fun _ => by simp [destV, destS, storesB]⟩

/-- Settles O21: a command's result is its source function's at its sources. -/
theorem resultDependsOnlyOnSources : Obligations.ResultDependsOnlyOnSources := by
  unfold Obligations.ResultDependsOnlyOnSources
  exact fun i s s' => answersAlike_exec

/-! ### The addresses of the buffer (20_memory.md R30) -/

/-- An address of a canonical buffer reads as the byte of that index. -/
theorem Memory.read_of_wf {m : Memory} (h : m.wf = true) (a : Nat) : m.read a = m.bytes[a]? := by
  rw [← Memory.read_ofBytes, Memory.ofBytes_bytes m h]

@[simp] theorem Memory.length_bytes (m : Memory) : m.bytes.length = m.length := List.length_map _

/-- Settles O22: a canonical buffer is its content written whole. -/
theorem bufferAddressesAreItsIndices : Obligations.BufferAddressesAreItsIndices := by
  unfold Obligations.BufferAddressesAreItsIndices
  intro m hwf a
  refine ⟨Memory.read_of_wf hwf a, ?_⟩
  simp [Memory.read_of_wf hwf]

end Sys2Proof.Machine

/-! Proofs about single operations and the laws that tie them to each other: the example words, `blen`, SUBK at the default,
GROW against SHRINK, and the codec in terms of the commands it is made of. -/

namespace Sys2Proof

/-- Settles O1: the word of each row is the word of its command. -/
theorem specWordsDecode : Obligations.SpecWordsDecode := by
  unfold Obligations.SpecWordsDecode
  simp only [decode_eq_ok_iff_encode_eq]
  decide

end Sys2Proof

namespace Sys2Proof.Machine

/-! ### The number of bits of a natural number (00_scope.md section 5.2) -/

/-- Settles O23: `blen v` is the least length that holds `v`. -/
theorem blenCountsBits : Obligations.BlenCountsBits := by
  unfold Obligations.BlenCountsBits
  refine ⟨rfl, fun v k hpos => ?_⟩
  have hnonzero : blen v ≠ 0 := (blen_eq_zero_iff v).not.mpr hpos.ne'
  have hlow : 2 ^ (k - 1) ≤ v ↔ ¬ blen v ≤ k - 1 := by rw [blen_le_iff, not_lt]
  rw [← blen_le_iff, hlow]
  omega

/-! ### SUBK at the default (41_incdec.md R77, R78) -/

/-- Settles O32: up to the value every decrement finds a 1 bit; past it one meets zeros, which the default does not allow. -/
theorem subkSubtractsCount : Obligations.SubkSubtractsCount := by
  unfold Obligations.SubkSubtractsCount
  intro s d a b
  refine ⟨by simp [toNat_encode, wordNumber, encodeFields, Fields.blank], fun k hk hle => ?_, fun hlt => ?_,
    fun hneg => ?_⟩
  · obtain ⟨r, hr, hlen, hval⟩ := exists_subtractConstant_eq_ok .error hle
    refine ⟨r, ?_, hlen, hval⟩
    rw [exec_eq_execWith_unbounded, execWith_subk, hk, countOperand_natCast, Except.bind, hr, retireV_unbounded_ok]
  · obtain ⟨k, hk⟩ := Int.eq_ofNat_of_zero_le (by omega : 0 ≤ s.readS b)
    have hfails := subtractConstant_eq_error (x := s.readV a) (k := k) (by omega) (.inl rfl : DecZero.error = .error ∨ _)
    rw [exec_eq_execWith_unbounded, execWith_subk, hk, countOperand_natCast, Except.bind, hfails,
      retireV_unbounded_error]
  · rw [exec_eq_execWith_unbounded, execWith_subk, countOperand_of_neg hneg, Except.bind, retireV_unbounded_error]

/-! ### GROW and SHRINK (42_length.md R86) -/

/-- Growing leaves the old bits as the low part. -/
theorem take_grow (x : Bits) (k : Nat) : (grow x k).take x.length = x := List.take_left

/-- Zeros are known by their length and their bits. -/
theorem eq_zeros_iff (x : Bits) : x = zeros x.length ↔ ∀ i < x.length, x[i]? = some false := by
  constructor
  · intro h i hi
    rw [h, zeros, List.getElem?_replicate_of_lt hi]
  · intro h
    refine List.ext_getElem? fun i => ?_
    rw [zeros, List.getElem?_replicate]
    split
    case isTrue hi => exact h i hi
    case isFalse hi => exact List.getElem?_eq_none (not_lt.mp hi)

/-- Zeros in the place of the top `k` bits give the vector back exactly if these were zeros. -/
theorem grow_take_eq_iff {x : Bits} {k : Nat} (hk : k ≤ x.length) :
    grow (x.take (x.length - k)) k = x ↔ ∀ i, x.length - k ≤ i → i < x.length → x[i]? = some false := by
  have hdrop : (x.drop (x.length - k)).length = k := by rw [List.length_drop]; omega
  have hcut : grow (x.take (x.length - k)) k = x ↔ x.drop (x.length - k) = zeros (x.drop (x.length - k)).length :=
    calc grow (x.take (x.length - k)) k = x
        ↔ x.take (x.length - k) ++ zeros k = x.take (x.length - k) ++ x.drop (x.length - k) := by
          rw [List.take_append_drop, grow]
      _ ↔ x.drop (x.length - k) = zeros (x.drop (x.length - k)).length := by
          rw [List.append_cancel_left_eq, hdrop, eq_comm]
  rw [hcut, eq_zeros_iff, hdrop]
  simp only [List.getElem?_drop]
  constructor
  · intro h i hle hlt
    have hbit := h (i - (x.length - k)) (by omega)
    rwa [Nat.add_sub_cancel' hle] at hbit
  · intro h i hi
    exact h _ (Nat.le_add_right _ i) (by omega)

/-- Settles O55: SHRINK by the same count drops the zeros GROW added; GROW puts zeros where SHRINK dropped bits. -/
theorem growShrinkInverse : Obligations.GrowShrinkInverse := by
  unfold Obligations.GrowShrinkInverse
  refine ⟨fun s d a e b hnonneg => ?_, fun s d a e b k hk hle => ?_⟩
  · obtain ⟨k, hk⟩ := Int.eq_ofNat_of_zero_le hnonneg
    have hle : k ≤ ((s.wroteV d (grow (s.readV a) k)).readV d).length := by simp
    refine ⟨_, _, exec_grow_of_natCast d a hk, exec_shrink_of_le e hk hle, ?_⟩
    rw [State.readV_wroteV_same, State.readV_wroteV_same, length_grow, Nat.add_sub_cancel, take_grow]
  · refine ⟨_, _, exec_shrink_of_le d hk hle, exec_grow_of_natCast e d hk, ?_⟩
    rw [State.readV_wroteV_same, State.readV_wroteV_same]
    exact grow_take_eq_iff hle

/-! ### The codec in terms of the other operations (45_codec.md R121, R124) -/

/-- Inverting the middle one of three parts. -/
theorem invertBits_append_append (x y z : Bits) :
    invertBits (x ++ y ++ z) x.length y.length = x ++ y.map not ++ z := by
  refine List.ext_getElem? fun i => ?_
  rw [getElem?_invertBits, List.append_assoc, List.append_assoc]
  rcases lt_or_ge i x.length with hlow | hlow
  · rw [if_neg (by omega), List.getElem?_append_left hlow, List.getElem?_append_left hlow]
  rw [List.getElem?_append_right hlow, List.getElem?_append_right hlow]
  rcases lt_or_ge (i - x.length) y.length with hmid | hhigh
  · rw [if_pos (by omega), List.getElem?_append_left hmid, List.getElem?_append_left (by simpa using hmid),
      List.getElem?_map]
  · rw [if_neg (by omega), List.getElem?_append_right hhigh, List.getElem?_append_right (by simpa using hhigh),
      List.length_map]

theorem invertRange_append_append (x y z : Bits) :
    invertRange (x ++ y ++ z) x.length y.length = .ok (x ++ y.map not ++ z) := by
  rw [invertRange_of_le (by simp), invertBits_append_append]

/-- Inverting all bits of a codeword but bit 0. -/
theorem invertRange_cons (c0 : Bool) (rest : Bits) :
    invertRange (c0 :: rest) 1 rest.length = .ok (c0 :: rest.map not) := by
  simpa using invertRange_append_append [c0] rest []

/-- Inverting the interior of the restored vector gives the codeword with the top bit 1 above it. -/
theorem invertRange_restoreBiased (c0 : Bool) (rest : Bits) :
    invertRange (restoreBiased c0 rest) 1 rest.length = .ok (append (c0 :: rest) true) := by
  simpa [restoreBiased, append, Function.comp_def] using invertRange_append_append [c0] (rest.map not) [true]

/-- Dropping the top bit undoes `append`. -/
theorem shrink_append (x : Bits) (bit : Bool) : shrink (append x bit) 1 = .ok x := by
  rw [append, shrink_of_le (by simp), List.length_append, List.length_singleton, Nat.add_sub_cancel, List.take_left]

/-- Adding to a minimal vector gives a vector with the length of the new value. -/
theorem addConstant_bitsOf_bitLength (v k : Nat) :
    addConstant (bitsOf v (bitLength v)) k = bitsOf (v + k) (bitLength (v + k)) := by
  have hval (u : Nat) : val (bitsOf u (bitLength u)) = u := val_bitsOf_fromIntegerLength u true
  have hmono : blen v ≤ blen (v + k) := blen_mono (Nat.le_add_right v k)
  apply eq_of_length_val
  · rw [length_addConstant, hval, length_bitsOf, length_bitsOf]
    unfold bitLength
    omega
  · rw [val_addConstant, hval, hval]

/-- The minimal vector of the biased value is the restored one. -/
theorem addConstant_bitsOf_eq_restoreBiased {c0 : Bool} {rest : Bits} {v : Nat}
    (h : val (restoreBiased c0 rest) = v + 2) : addConstant (bitsOf v (bitLength v)) 2 = restoreBiased c0 rest := by
  rw [addConstant_bitsOf_bitLength, ← h]
  exact (bitsOf_bitLength_eq_iff_minimal _).mpr (minimal_restoreBiased c0 rest)

/-- Settles O51: adding the bias gives the restored vector, whose inverted interior is the codeword below the top bit. -/
theorem encodeRefinesPrimitives : Obligations.EncodeRefinesPrimitives := by
  unfold Obligations.EncodeRefinesPrimitives
  intro v
  rcases lt_or_ge v 0 with hneg | hnonneg
  · rw [compactEncode_of_neg hneg, fromInteger_of_neg hneg]
  · obtain ⟨n, rfl⟩ := Int.eq_ofNat_of_zero_le hnonneg
    obtain ⟨c0, rest, hval⟩ := exists_val_restoreBiased_eq n
    have hmin : fromInteger n true = .ok (bitsOf n (bitLength n)) := fromInteger_natCast n true
    have hcount : ((rest.length + 2 : Nat) : Int) - 2 = rest.length := by omega
    simp only [hmin, addConstant_bitsOf_eq_restoreBiased hval, length_restoreBiased, hcount, invertRange_restoreBiased,
      shrink_append, compactEncode_of_val_restoreBiased hval]

/-- Settles O52: inverting and appending 1 gives the restored vector, whose value holds the bias to be subtracted. -/
theorem decodeRefinesPrimitives : Obligations.DecodeRefinesPrimitives := by
  unfold Obligations.DecodeRefinesPrimitives
  intro c z hne
  obtain ⟨c0, rest, rfl⟩ := List.exists_cons_of_ne_nil hne
  obtain ⟨x, hsub, -, hval⟩ := exists_subtractConstant_eq_ok z (two_le_val_restoreBiased c0 rest)
  have hcount : (((c0 :: rest).length : Nat) : Int) - 1 = rest.length := by rw [List.length_cons]; omega
  refine ⟨c0 :: rest.map not, x, hcount ▸ invertRange_cons c0 rest, hsub, ?_⟩
  rw [compactDecode_cons, toInteger]
  omega

end Sys2Proof.Machine
